-- ==== Sys2Proof/Word.lean ====
section
/-! DEFINITION. The machine's word types (spec 10_state.md R13, R14): the 8-bit byte of MEM, V, DT and ST,
the 16-bit word of I, PC, STACK and the instruction word, and the number of a general register. -/

namespace Sys2Proof

/-- An 8-bit unsigned byte (R8, R14). -/
abbrev Byte := BitVec 8

/-- A 16-bit unsigned word (R17, R18, R50). -/
abbrev Word := BitVec 16

/-- The number of a general register, 0..15: every value names a register (R54). -/
abbrev Reg := Fin 16

end Sys2Proof
end

