-- ==== Sys2Proof/Config.lean ====
section
/-! DEFINITION. What the spec leaves open (00_scope.md R6): the four parameters a model takes as an argument,
and the RANDOM oracle as a free value. The parameter FONT is an argument of `Machine.State.construct`; the
defaults of all of them are in Machine/Defaults.lean. -/

namespace Sys2Proof

/-- P_VF_ORDER: how a flag-producing ALU instruction writes its flag and its result (R91). -/
inductive VfOrder where
  /-- `V[15] <- f; V[x] <- r`, both computed from the operands before the instruction. -/
  | flagThenResult
  /-- `V[x] <- r; V[15] <- f`. -/
  | resultThenFlag
  /-- `V[15] <- f`, then the result is computed again from the current registers and written to `V[x]`. -/
  | sequential
  deriving DecidableEq, Repr

/-- P_SHL: whether 8xyE is an instruction of the engine (R58, R96). -/
inductive ShlMode where
  | unsupported
  | shiftLeft
  deriving DecidableEq, Repr

/-- P_BNNN: whether Bnnn pushes its own address before it jumps (R83). -/
inductive BnnnMode where
  | jump
  | pushThenJump
  deriving DecidableEq, Repr

/-- P_AUDIO: in which cycles the Audio Sink is notified (R68). -/
inductive AudioMode where
  | perActiveCycle
  | perActivation
  deriving DecidableEq, Repr

/-- The parameters of one engine, fixed for its life (R6). DESIGN CHOICE, log 1: they stand in State. -/
structure Params where
  /-- P_VF_ORDER, decision D1. -/
  vfOrder : VfOrder
  /-- P_SHL, decision D3. -/
  shl : ShlMode
  /-- P_BNNN, decision D4. -/
  bnnn : BnnnMode
  /-- P_AUDIO, decision D16. -/
  audio : AudioMode
  deriving DecidableEq, Repr

/-- The RANDOM oracle: the byte of the n-th draw. A free value with no body (R97: "any value 0..255, with no
distribution, seed or sequence assumed"; log 4). -/
opaque Config.randomByte : Nat → Byte

end Sys2Proof
end

