-- ==== Sys2Proof/Machine/Defaults.lean ====
section
/-! DEFINITION. The default values of the spec's parameters (00_scope.md R6), the default font, and what a byte of
MEM holds after construction (10_state.md R32, 20_memory.md R36, R37). -/

namespace Sys2Proof.Machine

/-- The defaults of R6 (decisions D1, D3, D4, D16; log 1, 2, 7, 8, 9). -/
def defaultParams : Params :=
  { vfOrder := .flagThenResult, shl := .unsupported, bnnn := .jump, audio := .perActiveCycle }

/-- MEM_SIZE: addresses run from 0x000 to 0xFFF (R5). -/
def memSize : Nat := 0x1000

/-- PROG_BASE: the load origin and the reset PC (R5). -/
def progBase : Nat := 0x200

/-- FONT_BASE: the first byte of the font table (R5). -/
def fontBase : Nat := 0x050

/-- GLYPH_BYTES: bytes per glyph (R5). -/
def glyphBytes : Nat := 5

/-- Glyphs 0 to 7 of R37. PRESUMED (general knowledge, log 3). -/
def fontLow : Vector Byte 40 :=
  #v[0xF0, 0x90, 0x90, 0x90, 0xF0,
     0x20, 0x60, 0x20, 0x20, 0x70,
     0xF0, 0x10, 0xF0, 0x80, 0xF0,
     0xF0, 0x10, 0xF0, 0x10, 0xF0,
     0x90, 0x90, 0xF0, 0x10, 0x10,
     0xF0, 0x80, 0xF0, 0x10, 0xF0,
     0xF0, 0x80, 0xF0, 0x90, 0xF0,
     0xF0, 0x10, 0x20, 0x40, 0x40]

/-- Glyphs 8 to F of R37. PRESUMED (general knowledge, log 3). -/
def fontHigh : Vector Byte 40 :=
  #v[0xF0, 0x90, 0xF0, 0x90, 0xF0,
     0xF0, 0x90, 0xF0, 0x10, 0xF0,
     0xF0, 0x90, 0xF0, 0x90, 0x90,
     0xE0, 0x90, 0xE0, 0x90, 0xE0,
     0xF0, 0x80, 0x80, 0x80, 0xF0,
     0xE0, 0x90, 0x90, 0x90, 0xE0,
     0xF0, 0x80, 0xF0, 0x80, 0xF0,
     0xF0, 0x80, 0xF0, 0x80, 0x80]

/-- The default of parameter FONT: 16 glyphs of 5 bytes, glyph k at index 5k, top row first (R37). -/
def defaultFont : Vector Byte 80 := fontLow ++ fontHigh

/-- What an address that memory does not list reads as: the byte construction leaves there with the default font
(R32, R36). -/
def resetByte (a : Nat) : Byte :=
  if fontBase ≤ a then (defaultFont[a - fontBase]?).getD 0 else 0

end Sys2Proof.Machine
end

