-- ==== Sys2Proof/Machine/State.lean ====
section
/-! DEFINITION. The engine's state as plain data (10_state.md R13), why a step can stop (60_exceptions.md R115), and
the state after construction, the engine's only reset (10_state.md R32, 70_reset_and_hazards.md R136). -/

namespace Sys2Proof.Machine

/-- MEM (R27, R34): the bytes that differ from what construction left, by rising address (`Memory.wf`). -/
abbrev Memory := List Host.Cell

/-- FB (R25): 32 rows of 64 pixels, `true` is the value 1; the byte view is `State.framebufferView`. -/
abbrev Framebuffer := Vector (Vector Bool 64) 32

/-- The framebuffer with every pixel 0. -/
def Framebuffer.clear : Framebuffer := Vector.replicate 32 (Vector.replicate 64 false)

/-- The state of the engine: the eleven fields of R13, then three fields of the model's own. -/
structure State where
  /-- MEM, 4096 bytes (R27). -/
  mem : Memory
  /-- V[0]..V[15]; V[15] is VF (R14, R15). -/
  v : Vector Byte 16
  /-- I, the index register (R17). -/
  i : Word
  /-- PC, the program counter (R18). -/
  pc : Word
  /-- SP, the number of occupied stack entries, 0..16 (R20). -/
  sp : Fin 17
  /-- STACK[0]..STACK[15] (R21). -/
  stack : Vector Word 16
  /-- DT, the delay timer (R22). -/
  dt : Byte
  /-- ST, the sound timer (R23). -/
  st : Byte
  /-- KEY[0]..KEY[15], the key latch (R24). -/
  key : Vector Bool 16
  /-- FB, the framebuffer (R25). -/
  fb : Framebuffer
  /-- REDRAW (R26). -/
  redraw : Bool
  /-- The engine's parameters, which nothing changes (R6). The model's own field, log 1. -/
  params : Params
  /-- How many bytes the RANDOM oracle has given (R97). The model's own field, log 4. -/
  draws : Nat
  /-- The audio bit the last successful step returned, an output (R68). The model's own field, log 5. -/
  audio : Bool
  deriving DecidableEq, Repr

/-- The engine's faults (R115), each with its record: `pc` is the address of the instruction (R123). Each is raised
exactly where the spec raises it and changes no state (R122), so none of them is a departure from the spec; where
a rule that raises it is the spec's own decision, the log entry named says what is unsafe. -/
inductive Fault where
  /-- Raised by `step` at decode when no row of the opcode map matches, and by 8xyE when P_SHL = Unsupported
  (R117). Safe for claims that a run goes on, unsafe for a claim that a program faults (log 2, 22). -/
  | unsupportedOpcode (word : Word) (pc : Word)
  /-- Raised by fetch, Dxyn, Fx33, Fx55 and Fx65 for an address above 0xFFF, and by Ex9E and ExA1 for a key number
  above 15 (R118). `addr` is the first offending address or the key number. Safe for claims that a run goes on,
  unsafe for a claim that a program faults (log 11, 12). -/
  | outOfBounds (addr : Nat) (pc : Word)
  /-- Raised by 2nnn, and by Bnnn under PushThenJump, when 16 entries are in use (R119). Safe. -/
  | stackOverflow (pc : Word)
  /-- Raised by 00EE when the stack is empty (R120). Safe. -/
  | stackUnderflow (pc : Word)
  /-- Raised by the host's `load` of an image longer than 3584 bytes, never by a step (R121). Safe. -/
  | programTooLarge (pc : Word)
  deriving DecidableEq, Repr

/-- The engine refuses nothing: every word has a meaning or raises a fault (R11). -/
inductive Refusal where
  /-- For an arm of `exec` that has no meaning yet; no arm raises it. Safe. -/
  | notModelled (mnemonic : String)
  deriving DecidableEq, Repr

/-- How the execute phase of an instruction ends (R65). -/
abbrev Result := Host.Outcome State Fault Refusal

/-- The state after construction with the default parameters and font (R32, R136); memory lists nothing. -/
def State.reset : State where
  mem := []
  v := Vector.replicate 16 0
  i := 0
  pc := 0x200
  sp := 0
  stack := Vector.replicate 16 0
  dt := 0
  st := 0
  key := Vector.replicate 16 false
  fb := Framebuffer.clear
  redraw := false
  params := defaultParams
  draws := 0
  audio := false

end Sys2Proof.Machine
end

