-- ==== Sys2Proof/Machine/Operands.lean ====
section
/-! DEFINITION. Every operand form of the instruction set (30_encoding.md R53, R54; 20_memory.md R49): general
registers, zero-extended immediates, index-relative addresses, key numbers; and the one home of each register's
reads and writes. -/

namespace Sys2Proof.Machine

/-- Read `V[r]` (R9, R14). -/
def State.reg (s : State) (r : Reg) : Byte := s.v[r.val]

/-- Write `V[r] <- b` (R9, R14). No register is hardwired. -/
def State.setReg (s : State) (r : Reg) (b : Byte) : State := { s with v := s.v.set r.val b }

/-- FLAG_REG: VF is V[15] (R5, R15). -/
def vf : Reg := 15

/-- Write `I <- a` (R17). -/
def State.setI (s : State) (a : Word) : State := { s with i := a }

/-- Write `PC <- a` (R18). -/
def State.setPC (s : State) (a : Word) : State := { s with pc := a }

/-- `PC <- PC + 2`, the default (R65, R66). -/
def State.advance (s : State) : State := s.setPC (s.pc + 2)

/-- `PC <- PC + 4` when the condition holds, otherwise `PC <- PC + 2`: a conditional skip (R65). -/
def State.skipIf (s : State) (c : Bool) : State := if c then s.setPC (s.pc + 4) else s.advance

/-- Write `DT <- b` (R22). -/
def State.setDT (s : State) (b : Byte) : State := { s with dt := b }

/-- Write `ST <- b` (R23). -/
def State.setST (s : State) (b : Byte) : State := { s with st := b }

/-- A 12-bit address operand as a 16-bit value, zero-extended (R53). -/
def zext16 (nnn : BitVec 12) : Word := BitVec.ofNat 16 nnn.toNat

/-- The index-relative address `I + k`, an exact integer (R39, R49). -/
def State.indexAddr (s : State) (k : Nat) : Nat := s.i.toNat + k

/-- Whether key number `k` is pressed; `none` when `k` names no key (R24, R110). -/
def State.keyPressed (s : State) (k : Nat) : Option Bool := s.key[k]?

/-- The lowest-numbered pressed key, if any (R111). -/
def State.lowestKey (s : State) : Option Nat := s.key.toList.findIdx? id

end Sys2Proof.Machine
end

