-- ==== Sys2Proof/Machine/Flags.lean ====
section
/-! DEFINITION. The flag computations of the ALU instructions, and the order in which a flag and a result are written
(43_alu.md R91 to R98). VF is the only flag (10_state.md R29). -/

namespace Sys2Proof.Machine

/-- `1 if c else 0` as a byte (R8). -/
def flagByte (c : Bool) : Byte := if c then 1 else 0

/-- What an ALU instruction computes from `a = V[x]` and `b = V[y]`: the flag and the result (R91). -/
structure AluOut where
  flag : Bool
  result : Byte
  deriving DecidableEq, Repr

/-- Add: the flag is the carry out of bit 7 (R92). -/
def aluAdd (a b : Byte) : AluOut where
  flag := decide (a.toNat + b.toNat > 255)
  result := a + b

/-- Subtract `a - b`: the flag is 1 exactly when `a > b`, strictly (R93). -/
def aluSub (a b : Byte) : AluOut where
  flag := decide (a.toNat > b.toNat)
  result := a - b

/-- Reverse subtract `b - a`: the flag is 1 exactly when `b > a`, strictly (R95). -/
def aluSubn (a b : Byte) : AluOut where
  flag := decide (b.toNat > a.toNat)
  result := b - a

/-- Shift right by one: the flag is the old bit 0; the second operand is not read (R94). -/
def aluShr (a _b : Byte) : AluOut where
  flag := a.getLsbD 0
  result := a >>> 1

/-- Shift left by one: the flag is the old bit 7; the second operand is not read (R96). -/
def aluShl (a _b : Byte) : AluOut where
  flag := a.getLsbD 7
  result := a <<< 1

/-- Compute `op` from `V[x]` and `V[y]` and write its flag to VF and its result to `V[x]` in the order that
P_VF_ORDER names (R91, decision D1). -/
def State.writeAlu (s : State) (op : Byte → Byte → AluOut) (x y : Reg) : State :=
  let out := op (s.reg x) (s.reg y)
  match s.params.vfOrder with
  | .flagThenResult => (s.setReg vf (flagByte out.flag)).setReg x out.result
  | .resultThenFlag => (s.setReg x out.result).setReg vf (flagByte out.flag)
  | .sequential =>
    let s1 := s.setReg vf (flagByte out.flag)
    s1.setReg x (op (s1.reg x) (s1.reg y)).result

end Sys2Proof.Machine
end

