-- ==== Sys2Proof/Syntax.lean ====
section
/-! DEFINITION. The instruction set: one constructor per row of spec/opcode_table.json (30_encoding.md R55),
named by the row's hexadecimal pattern, which the spec takes as the canonical name (R61). -/

namespace Sys2Proof

/-- One instruction with its operand fields: `x`, `y` register numbers, `n` a 4-bit count, `nn` a byte,
`nnn` a 12-bit address (R51, R53, R54). -/
inductive Instr where
  /-- 00E0 clear screen (R72). -/
  | op00E0
  /-- 00EE return from subroutine (R76). -/
  | op00EE
  /-- 1nnn jump (R77). -/
  | op1nnn (nnn : BitVec 12)
  /-- 2nnn call subroutine (R78). -/
  | op2nnn (nnn : BitVec 12)
  /-- 3xnn skip if V[x] = nn (R79). -/
  | op3xnn (x : Reg) (nn : Byte)
  /-- 4xnn skip if V[x] ≠ nn (R80). -/
  | op4xnn (x : Reg) (nn : Byte)
  /-- 5xy0 skip if V[x] = V[y] (R81). -/
  | op5xy0 (x y : Reg)
  /-- 6xnn load immediate (R85). -/
  | op6xnn (x : Reg) (nn : Byte)
  /-- 7xnn add immediate, no carry (R86). -/
  | op7xnn (x : Reg) (nn : Byte)
  /-- 8xy0 copy register (R87). -/
  | op8xy0 (x y : Reg)
  /-- 8xy1 bitwise OR (R88). -/
  | op8xy1 (x y : Reg)
  /-- 8xy2 bitwise AND (R89). -/
  | op8xy2 (x y : Reg)
  /-- 8xy3 bitwise XOR (R90). -/
  | op8xy3 (x y : Reg)
  /-- 8xy4 add with carry (R92). -/
  | op8xy4 (x y : Reg)
  /-- 8xy5 subtract, flag = no borrow (R93). -/
  | op8xy5 (x y : Reg)
  /-- 8xy6 shift right by one; `y` is encoded and not read (R94). -/
  | op8xy6 (x y : Reg)
  /-- 8xy7 reverse subtract, flag = no borrow (R95). -/
  | op8xy7 (x y : Reg)
  /-- 8xyE shift left by one, present only when P_SHL = ShiftLeft; `y` is encoded and not read (R96). -/
  | op8xyE (x y : Reg)
  /-- 9xy0 skip if V[x] ≠ V[y] (R82). -/
  | op9xy0 (x y : Reg)
  /-- Annn load index (R101). -/
  | opAnnn (nnn : BitVec 12)
  /-- Bnnn jump with offset V[0] (R83). -/
  | opBnnn (nnn : BitVec 12)
  /-- Cxnn random byte masked (R97). -/
  | opCxnn (x : Reg) (nn : Byte)
  /-- Dxyn draw sprite of n rows (R73 to R75). -/
  | opDxyn (x y : Reg) (n : Fin 16)
  /-- Ex9E skip if key V[x] pressed (R108). -/
  | opEx9E (x : Reg)
  /-- ExA1 skip if key V[x] not pressed (R109). -/
  | opExA1 (x : Reg)
  /-- Fx07 read delay timer (R112). -/
  | opFx07 (x : Reg)
  /-- Fx0A wait for a key (R111). -/
  | opFx0A (x : Reg)
  /-- Fx15 set delay timer (R113). -/
  | opFx15 (x : Reg)
  /-- Fx18 set sound timer (R114). -/
  | opFx18 (x : Reg)
  /-- Fx1E add register to index (R102). -/
  | opFx1E (x : Reg)
  /-- Fx29 point I at a font glyph (R103). -/
  | opFx29 (x : Reg)
  /-- Fx33 store binary-coded decimal (R104). -/
  | opFx33 (x : Reg)
  /-- Fx55 store registers V[0]..V[x] (R105). -/
  | opFx55 (x : Reg)
  /-- Fx65 load registers V[0]..V[x] and advance I (R106). -/
  | opFx65 (x : Reg)
  deriving DecidableEq, Repr

end Sys2Proof
end

