-- ==== Sys2Proof/WellFormed.lean ====
section
/-! DEFINITION. Which instruction terms are instructions of an engine with given parameters. The operand types
already hold exactly the values the fields of an encoding admit (R53, R54), so the one check is the parameter
P_SHL: 8xyE is an instruction only when P_SHL = ShiftLeft (30_encoding.md R58). -/

namespace Sys2Proof

/-- Whether the instruction exists under the parameters (R56 to R58). -/
def Instr.wf (p : Params) : Instr → Bool
  | .op8xyE _ _ => p.shl == .shiftLeft
  | .op00E0 | .op00EE | .op1nnn _ | .op2nnn _ | .op3xnn _ _ | .op4xnn _ _ | .op5xy0 _ _ | .op6xnn _ _
  | .op7xnn _ _ | .op8xy0 _ _ | .op8xy1 _ _ | .op8xy2 _ _ | .op8xy3 _ _ | .op8xy4 _ _ | .op8xy5 _ _
  | .op8xy6 _ _ | .op8xy7 _ _ | .op9xy0 _ _ | .opAnnn _ | .opBnnn _ | .opCxnn _ _ | .opDxyn _ _ _
  | .opEx9E _ | .opExA1 _ | .opFx07 _ | .opFx0A _ | .opFx15 _ | .opFx18 _ | .opFx1E _ | .opFx29 _
  | .opFx33 _ | .opFx55 _ | .opFx65 _ => true

end Sys2Proof
end

