-- ==== Sys2Proof/Decode.lean ====
section
/-! DEFINITION. Decoding a 16-bit word and a byte stream, the encoder, and the opcode map as data
(30_encoding.md R50 to R58). Decoding reads no state but the parameter P_SHL (R56). -/

namespace Sys2Proof

/-- The unsigned field of `len` bits of `w` whose lowest bit is bit `lo` (R7). -/
def bitField (w : Word) (lo len : Nat) : Nat := w.toNat / 2 ^ lo % 2 ^ len

/-- F = w[15:12], the family (R51). -/
def fieldF (w : Word) : Nat := bitField w 12 4

/-- x = w[11:8] (R51). -/
def fieldX (w : Word) : Reg := Fin.ofNat 16 (bitField w 8 4)

/-- y = w[7:4] (R51). -/
def fieldY (w : Word) : Reg := Fin.ofNat 16 (bitField w 4 4)

/-- n = w[3:0] (R51). -/
def fieldN (w : Word) : Fin 16 := Fin.ofNat 16 (bitField w 0 4)

/-- nn = w[7:0] (R51). -/
def fieldNN (w : Word) : Byte := BitVec.ofNat 8 (bitField w 0 8)

/-- nnn = w[11:0] (R51). -/
def fieldNNN (w : Word) : BitVec 12 := BitVec.ofNat 12 (bitField w 0 12)

/-- Family 0: the whole word must be one of its two members (R52, R60). -/
def decodeFamily0 (w : Word) : Option Instr :=
  if w = 0x00E0 then some .op00E0 else if w = 0x00EE then some .op00EE else none

/-- Family 8: the low nibble is a function code; 0xE only when P_SHL = ShiftLeft (R56, R58). -/
def decodeFamily8 (p : Params) (x y : Reg) (function : Nat) : Option Instr :=
  match function with
  | 0x0 => some (.op8xy0 x y)
  | 0x1 => some (.op8xy1 x y)
  | 0x2 => some (.op8xy2 x y)
  | 0x3 => some (.op8xy3 x y)
  | 0x4 => some (.op8xy4 x y)
  | 0x5 => some (.op8xy5 x y)
  | 0x6 => some (.op8xy6 x y)
  | 0x7 => some (.op8xy7 x y)
  | 0xE => if p.shl = .shiftLeft then some (.op8xyE x y) else none
  | _ => none

/-- Family E: the low byte is a function code (R56). -/
def decodeFamilyE (x : Reg) (function : Nat) : Option Instr :=
  match function with
  | 0x9E => some (.opEx9E x)
  | 0xA1 => some (.opExA1 x)
  | _ => none

/-- Family F: the low byte is a function code (R56). -/
def decodeFamilyF (x : Reg) (function : Nat) : Option Instr :=
  match function with
  | 0x07 => some (.opFx07 x)
  | 0x0A => some (.opFx0A x)
  | 0x15 => some (.opFx15 x)
  | 0x18 => some (.opFx18 x)
  | 0x1E => some (.opFx1E x)
  | 0x29 => some (.opFx29 x)
  | 0x33 => some (.opFx33 x)
  | 0x55 => some (.opFx55 x)
  | 0x65 => some (.opFx65 x)
  | _ => none

/-- Decode one instruction word, by dispatch on its family (R56); `none` is an unsupported word (R57). -/
def decodeWord (p : Params) (w : Word) : Option Instr :=
  match fieldF w with
  | 0x0 => decodeFamily0 w
  | 0x1 => some (.op1nnn (fieldNNN w))
  | 0x2 => some (.op2nnn (fieldNNN w))
  | 0x3 => some (.op3xnn (fieldX w) (fieldNN w))
  | 0x4 => some (.op4xnn (fieldX w) (fieldNN w))
  | 0x5 => if bitField w 0 4 = 0 then some (.op5xy0 (fieldX w) (fieldY w)) else none
  | 0x6 => some (.op6xnn (fieldX w) (fieldNN w))
  | 0x7 => some (.op7xnn (fieldX w) (fieldNN w))
  | 0x8 => decodeFamily8 p (fieldX w) (fieldY w) (bitField w 0 4)
  | 0x9 => if bitField w 0 4 = 0 then some (.op9xy0 (fieldX w) (fieldY w)) else none
  | 0xA => some (.opAnnn (fieldNNN w))
  | 0xB => some (.opBnnn (fieldNNN w))
  | 0xC => some (.opCxnn (fieldX w) (fieldNN w))
  | 0xD => some (.opDxyn (fieldX w) (fieldY w) (fieldN w))
  | 0xE => decodeFamilyE (fieldX w) (bitField w 0 8)
  | 0xF => decodeFamilyF (fieldX w) (bitField w 0 8)
  | _ => none

/-- Why a byte stream is not an instruction. -/
inductive DecodeReject where
  /-- Fewer than the two bytes every instruction has (R50). -/
  | truncated
  /-- The word matches no row of the opcode map under the parameters (R57). -/
  | unsupportedOpcode (word : Word)
  deriving DecidableEq, Repr

/-- The big-endian word of two consecutive bytes, the first at the lower address (R40, R63). -/
def bigEndian (hi lo : Byte) : Word := BitVec.ofNat 16 (hi.toNat * 256 + lo.toNat)

/-- Decode the first instruction of a byte stream and give the rest (R50, R56); total on any bytes. -/
def decode (p : Params) : List Byte → Except DecodeReject (Instr × List Byte)
  | hi :: lo :: rest =>
    match decodeWord p (bigEndian hi lo) with
    | some i => .ok (i, rest)
    | none => .error (.unsupportedOpcode (bigEndian hi lo))
  | [_] | [] => .error .truncated

/-! ### The encoder -/

/-- Format NNN: family, then a 12-bit field (R52). -/
def encNNN (family : Nat) (nnn : BitVec 12) : Word := BitVec.ofNat 16 (family * 4096 + nnn.toNat)

/-- Format XNN: family, x, then a byte (R52); format XK is the same shape with the byte a function code. -/
def encXNN (family : Nat) (x : Reg) (nn : Nat) : Word := BitVec.ofNat 16 (family * 4096 + x.val * 256 + nn)

/-- Formats XY and XYN: family, x, y, then a nibble (R52). -/
def encXYN (family : Nat) (x y : Reg) (n : Nat) : Word :=
  BitVec.ofNat 16 (family * 4096 + x.val * 256 + y.val * 16 + n)

/-- The word of an instruction, from the encodings of R55. -/
def encode : Instr → Word
  | .op00E0 => 0x00E0
  | .op00EE => 0x00EE
  | .op1nnn nnn => encNNN 0x1 nnn
  | .op2nnn nnn => encNNN 0x2 nnn
  | .op3xnn x nn => encXNN 0x3 x nn.toNat
  | .op4xnn x nn => encXNN 0x4 x nn.toNat
  | .op5xy0 x y => encXYN 0x5 x y 0x0
  | .op6xnn x nn => encXNN 0x6 x nn.toNat
  | .op7xnn x nn => encXNN 0x7 x nn.toNat
  | .op8xy0 x y => encXYN 0x8 x y 0x0
  | .op8xy1 x y => encXYN 0x8 x y 0x1
  | .op8xy2 x y => encXYN 0x8 x y 0x2
  | .op8xy3 x y => encXYN 0x8 x y 0x3
  | .op8xy4 x y => encXYN 0x8 x y 0x4
  | .op8xy5 x y => encXYN 0x8 x y 0x5
  | .op8xy6 x y => encXYN 0x8 x y 0x6
  | .op8xy7 x y => encXYN 0x8 x y 0x7
  | .op8xyE x y => encXYN 0x8 x y 0xE
  | .op9xy0 x y => encXYN 0x9 x y 0x0
  | .opAnnn nnn => encNNN 0xA nnn
  | .opBnnn nnn => encNNN 0xB nnn
  | .opCxnn x nn => encXNN 0xC x nn.toNat
  | .opDxyn x y n => encXYN 0xD x y n.val
  | .opEx9E x => encXNN 0xE x 0x9E
  | .opExA1 x => encXNN 0xE x 0xA1
  | .opFx07 x => encXNN 0xF x 0x07
  | .opFx0A x => encXNN 0xF x 0x0A
  | .opFx15 x => encXNN 0xF x 0x15
  | .opFx18 x => encXNN 0xF x 0x18
  | .opFx1E x => encXNN 0xF x 0x1E
  | .opFx29 x => encXNN 0xF x 0x29
  | .opFx33 x => encXNN 0xF x 0x33
  | .opFx55 x => encXNN 0xF x 0x55
  | .opFx65 x => encXNN 0xF x 0x65

/-- The two bytes of a word as the engine stores them, most significant first (R40). -/
def wordBytes (w : Word) : List Byte := [BitVec.ofNat 8 (w.toNat / 256), BitVec.ofNat 8 w.toNat]

/-! ### The opcode map as data -/

/-- One row of the opcode map: a word belongs to it when `w &&& mask = pattern` (R55). -/
structure OpcodeRow where
  pattern : Word
  mask : Word
  deriving DecidableEq, Repr

/-- Whether a word matches a row (R56). -/
def OpcodeRow.covers (r : OpcodeRow) (w : Word) : Bool := w &&& r.mask == r.pattern

/-- The row of an instruction: its match and mask columns of R55. -/
def Instr.row : Instr → OpcodeRow
  | .op00E0 => ⟨0x00E0, 0xFFFF⟩
  | .op00EE => ⟨0x00EE, 0xFFFF⟩
  | .op1nnn _ => ⟨0x1000, 0xF000⟩
  | .op2nnn _ => ⟨0x2000, 0xF000⟩
  | .op3xnn _ _ => ⟨0x3000, 0xF000⟩
  | .op4xnn _ _ => ⟨0x4000, 0xF000⟩
  | .op5xy0 _ _ => ⟨0x5000, 0xF00F⟩
  | .op6xnn _ _ => ⟨0x6000, 0xF000⟩
  | .op7xnn _ _ => ⟨0x7000, 0xF000⟩
  | .op8xy0 _ _ => ⟨0x8000, 0xF00F⟩
  | .op8xy1 _ _ => ⟨0x8001, 0xF00F⟩
  | .op8xy2 _ _ => ⟨0x8002, 0xF00F⟩
  | .op8xy3 _ _ => ⟨0x8003, 0xF00F⟩
  | .op8xy4 _ _ => ⟨0x8004, 0xF00F⟩
  | .op8xy5 _ _ => ⟨0x8005, 0xF00F⟩
  | .op8xy6 _ _ => ⟨0x8006, 0xF00F⟩
  | .op8xy7 _ _ => ⟨0x8007, 0xF00F⟩
  | .op8xyE _ _ => ⟨0x800E, 0xF00F⟩
  | .op9xy0 _ _ => ⟨0x9000, 0xF00F⟩
  | .opAnnn _ => ⟨0xA000, 0xF000⟩
  | .opBnnn _ => ⟨0xB000, 0xF000⟩
  | .opCxnn _ _ => ⟨0xC000, 0xF000⟩
  | .opDxyn _ _ _ => ⟨0xD000, 0xF000⟩
  | .opEx9E _ => ⟨0xE09E, 0xF0FF⟩
  | .opExA1 _ => ⟨0xE0A1, 0xF0FF⟩
  | .opFx07 _ => ⟨0xF007, 0xF0FF⟩
  | .opFx0A _ => ⟨0xF00A, 0xF0FF⟩
  | .opFx15 _ => ⟨0xF015, 0xF0FF⟩
  | .opFx18 _ => ⟨0xF018, 0xF0FF⟩
  | .opFx1E _ => ⟨0xF01E, 0xF0FF⟩
  | .opFx29 _ => ⟨0xF029, 0xF0FF⟩
  | .opFx33 _ => ⟨0xF033, 0xF0FF⟩
  | .opFx55 _ => ⟨0xF055, 0xF0FF⟩
  | .opFx65 _ => ⟨0xF065, 0xF0FF⟩

/-- The 34 rows of R55 in the table's order. -/
def opcodeMap : List OpcodeRow :=
  [⟨0x00E0, 0xFFFF⟩, ⟨0x00EE, 0xFFFF⟩, ⟨0x1000, 0xF000⟩, ⟨0x2000, 0xF000⟩, ⟨0x3000, 0xF000⟩, ⟨0x4000, 0xF000⟩,
    ⟨0x5000, 0xF00F⟩, ⟨0x6000, 0xF000⟩, ⟨0x7000, 0xF000⟩] ++
  [⟨0x8000, 0xF00F⟩, ⟨0x8001, 0xF00F⟩, ⟨0x8002, 0xF00F⟩, ⟨0x8003, 0xF00F⟩, ⟨0x8004, 0xF00F⟩, ⟨0x8005, 0xF00F⟩,
    ⟨0x8006, 0xF00F⟩, ⟨0x8007, 0xF00F⟩, ⟨0x800E, 0xF00F⟩] ++
  [⟨0x9000, 0xF00F⟩, ⟨0xA000, 0xF000⟩, ⟨0xB000, 0xF000⟩, ⟨0xC000, 0xF000⟩, ⟨0xD000, 0xF000⟩, ⟨0xE09E, 0xF0FF⟩,
    ⟨0xE0A1, 0xF0FF⟩] ++
  [⟨0xF007, 0xF0FF⟩, ⟨0xF00A, 0xF0FF⟩, ⟨0xF015, 0xF0FF⟩, ⟨0xF018, 0xF0FF⟩, ⟨0xF01E, 0xF0FF⟩, ⟨0xF029, 0xF0FF⟩,
    ⟨0xF033, 0xF0FF⟩, ⟨0xF055, 0xF0FF⟩, ⟨0xF065, 0xF0FF⟩]

/-! ### The host's entry -/

/-- The parameters under which every row of the opcode map decodes: P_SHL = ShiftLeft, the rest the defaults
of R6 (decoding reads no other parameter, R56). DESIGN CHOICE, log 2. -/
def allRowsParams : Params := ⟨.flagThenResult, .shiftLeft, .jump, .perActiveCycle⟩

/-- The instruction the decoder reads from an opcode-table word: `w`'s low `nbits` bits are the one 16-bit word
(bit 0 its least significant), laid out big-endian as MEM stores it. P_SHL is taken as ShiftLeft here, so that
the parameterised row 8xyE decodes as the table has it (R55, R58; log 2). -/
def decodeTableWord (nbits w : Nat) : Option Instr :=
  match decode allRowsParams (wordBytes (BitVec.ofNat 16 (w % 2 ^ nbits))) with
  | .ok (i, _) => some i
  | .error _ => none

end Sys2Proof
end

