-- ==== Sys2Proof/Machine/Ops.lean ====
section
/-! DEFINITION. The named operations the meanings share: memory (20_memory.md), raising a fault (60_exceptions.md
R116 to R123), the call stack (10_state.md R21), the framebuffer (41_display.md R73, R74), the random draw (43_alu.md
R97), fetch and the timer tick (40_instruction_cycle.md R63, R67, R68). -/

namespace Sys2Proof.Machine

/-! ### Memory -/

/-- The canonical form: addresses strictly rising and inside MEM, no entry equal to what an unlisted address
reads as. -/
abbrev Memory.wf (m : Memory) : Prop :=
  m.Pairwise (fun c d => c.1 < d.1) ∧ ∀ c ∈ m, c.1 < memSize ∧ c.2 ≠ resetByte c.1

/-- The byte at address `a` (R10, R44). -/
def Memory.read (m : Memory) (a : Nat) : Byte :=
  match m with
  | [] => resetByte a
  | (k, b) :: rest => if k = a then b else Memory.read rest a

/-- An entry in front of a tail, left out when it equals what an unlisted address reads as. -/
def Memory.entry (a : Nat) (b : Byte) (rest : Memory) : Memory :=
  if b = resetByte a then rest else (a, b) :: rest

/-- `MEM[a] <- b`, keeping the canonical form (R10, R44). The caller has checked `a <= 0xFFF` (R116). -/
def Memory.write (m : Memory) (a : Nat) (b : Byte) : Memory :=
  match m with
  | [] => Memory.entry a b []
  | (k, c) :: rest =>
    if a < k then Memory.entry a b ((k, c) :: rest)
    else if a = k then Memory.entry a b rest
    else (k, c) :: Memory.write rest a b

/-- Store consecutive bytes from address `a` on, lowest address first (R104, R105, R137). -/
def Memory.store (m : Memory) (a : Nat) (bytes : List Byte) : Memory :=
  match bytes with
  | [] => m
  | b :: rest => Memory.store (m.write a b) (a + 1) rest

/-! ### Raising a fault -/

/-- Raise a fault: the step ends with it, no state changes, and its record holds the PC of the instruction
(R10, R69, R122, R123). No control transfers inside the machine and nothing returns from it (R126, R127). -/
def raise (s : State) (f : Word → Fault) : Result := .fault (f s.pc)

/-- The first address above 0xFFF among `base .. base + count - 1`, if there is one (R39, R118). -/
def firstOutOfBounds (base count : Nat) : Option Nat :=
  if count = 0 ∨ base + count ≤ memSize then none else some (max base memSize)

/-- Check the `count` addresses from I on before anything is written; go on with `k` when all are in MEM
(R116). -/
def withIndexRange (s : State) (count : Nat) (k : Result) : Result :=
  match firstOutOfBounds (s.indexAddr 0) count with
  | some a => raise s (.outOfBounds a)
  | none => k

/-! ### The call stack -/

/-- Push the address of this instruction and jump to `target`; StackOverflow when full, checked first
(R21, R78, R119). -/
def pushAndJump (s : State) (target : Word) : Result :=
  if h : s.sp.val < 16 then
    .next { s with stack := s.stack.set s.sp.val s.pc, sp := ⟨s.sp.val + 1, by omega⟩, pc := target }
  else raise s .stackOverflow

/-- Pop a return address and go 2 bytes past it; StackUnderflow when empty, checked first. The entry keeps its
value (R21, R76, R120). -/
def popAndReturn (s : State) : Result :=
  if h : s.sp.val = 0 then raise s .stackUnderflow
  else
    .next { s with sp := ⟨s.sp.val - 1, by omega⟩, pc := s.stack[s.sp.val - 1]'(by omega) + 2 }

/-! ### The framebuffer -/

/-- A framebuffer being drawn on, and whether a pixel has been turned off so far (R73). -/
structure Blit where
  fb : Framebuffer
  collide : Bool
  deriving DecidableEq, Repr

/-- XOR a 1 into pixel (row r, column c), noting a collision when it was on (R73). -/
def Blit.flip (p : Blit) (r : Fin 32) (c : Fin 64) : Blit where
  fb := p.fb.set r.val (p.fb[r.val].set c.val !p.fb[r.val][c.val])
  collide := p.collide || p.fb[r.val][c.val]

/-- Draw one sprite byte on row `r` from column `cx` on, bit 7 first, wrapping at column 64 (R73, R74). -/
def Blit.spriteRow (p : Blit) (bits : Byte) (r : Fin 32) (cx : Nat) : Blit :=
  (List.range 8).foldl (fun q b => if bits.getLsbD (7 - b) then q.flip r (Fin.ofNat 64 (cx + b)) else q) p

/-- Draw `n` sprite bytes read from `a` on, at column `cx` and row `cy`, wrapping at row 32 (R73, R74). -/
def Blit.sprite (p : Blit) (m : Memory) (a cx cy n : Nat) : Blit :=
  (List.range n).foldl (fun q k => q.spriteRow (m.read (a + k)) (Fin.ofNat 32 (cy + k)) cx) p

/-- Replace the framebuffer and set REDRAW, changed or not (R26, R72, R73). -/
def State.setFB (s : State) (fb : Framebuffer) : State := { s with fb := fb, redraw := true }

/-! ### The random oracle -/

/-- One draw from the oracle: the state after it, and the byte (R97, log 4). -/
def State.drawRandom (s : State) : State × Byte := ({ s with draws := s.draws + 1 }, Config.randomByte s.draws)

/-! ### Fetch -/

/-- Fetch the instruction word at PC and PC + 1, big-endian, at an even or odd PC; OutOfBounds when either address
is above 0xFFF. It changes no state (R63). -/
def fetchWord (s : State) : Except Fault Word :=
  if s.pc.toNat > 0xFFF then .error (.outOfBounds s.pc.toNat s.pc)
  else if s.pc.toNat + 1 > 0xFFF then .error (.outOfBounds (s.pc.toNat + 1) s.pc)
  else .ok (bigEndian (s.mem.read s.pc.toNat) (s.mem.read (s.pc.toNat + 1)))

/-! ### The timer tick and the audio bit -/

/-- Decrement a timer that is not 0 (R67). -/
def tickTimer (t : Byte) : Byte := if t = 0 then 0 else t - 1

/-- Whether the instruction is an Fx18 that assigns a nonzero value, read in the state before it (R68). -/
def activatesSound (i : Instr) (s : State) : Bool :=
  match i with
  | .opFx18 x => s.reg x != 0
  | _ => false

/-- The audio bit of a cycle: `s` is the state before the step, `t` the state the execute phase left (R68, R71). -/
def audioBit (i : Instr) (s t : State) : Bool :=
  match s.params.audio with
  | .perActiveCycle => t.st != 0
  | .perActivation => activatesSound i s

/-- The end of a successful cycle: the audio bit, then ST and DT each decremented when not 0 (R67, R68, R71). -/
def tick (i : Instr) (s t : State) : State :=
  { t with audio := audioBit i s t, st := tickTimer t.st, dt := tickTimer t.dt }

end Sys2Proof.Machine
end

