-- ==== Sys2Proof/Machine/Alu.lean ====
section
/-! DEFINITION. Register and ALU instructions (43_alu.md R85 to R97). None raises a fault of its own, but 8xyE when
P_SHL = Unsupported (R96). -/

namespace Sys2Proof.Machine

/-- 6xnn: `V[x] <- nn` (R85). -/
def exec6xnn (x : Reg) (nn : Byte) (s : State) : Result := .next (s.setReg x nn).advance

/-- 7xnn: `V[x] <- (V[x] + nn) mod 256`, VF not written (R86). -/
def exec7xnn (x : Reg) (nn : Byte) (s : State) : Result := .next (s.setReg x (s.reg x + nn)).advance

/-- 8xy0: `V[x] <- V[y]` (R87). -/
def exec8xy0 (x y : Reg) (s : State) : Result := .next (s.setReg x (s.reg y)).advance

/-- 8xy1: `V[x] <- V[x] | V[y]` (R88). -/
def exec8xy1 (x y : Reg) (s : State) : Result := .next (s.setReg x (s.reg x ||| s.reg y)).advance

/-- 8xy2: `V[x] <- V[x] & V[y]` (R89). -/
def exec8xy2 (x y : Reg) (s : State) : Result := .next (s.setReg x (s.reg x &&& s.reg y)).advance

/-- 8xy3: `V[x] <- V[x] ^ V[y]` (R90). -/
def exec8xy3 (x y : Reg) (s : State) : Result := .next (s.setReg x (s.reg x ^^^ s.reg y)).advance

/-- 8xy4: add, VF is the carry (R92). -/
def exec8xy4 (x y : Reg) (s : State) : Result := .next (s.writeAlu aluAdd x y).advance

/-- 8xy5: subtract `V[x] - V[y]`, VF is no-borrow by the strict comparison (R93). -/
def exec8xy5 (x y : Reg) (s : State) : Result := .next (s.writeAlu aluSub x y).advance

/-- 8xy6: shift `V[x]` right by one, VF is the bit shifted out (R94). -/
def exec8xy6 (x y : Reg) (s : State) : Result := .next (s.writeAlu aluShr x y).advance

/-- 8xy7: reverse subtract `V[y] - V[x]`, VF is no-borrow by the strict comparison (R95). -/
def exec8xy7 (x y : Reg) (s : State) : Result := .next (s.writeAlu aluSubn x y).advance

/-- 8xyE: shift `V[x]` left by one when P_SHL = ShiftLeft; otherwise UnsupportedOpcode, which `step` raises at decode
already (R96, log 2). -/
def exec8xyE (x y : Reg) (s : State) : Result :=
  match s.params.shl with
  | .unsupported => raise s (.unsupportedOpcode (encode (.op8xyE x y)))
  | .shiftLeft => .next (s.writeAlu aluShl x y).advance

/-- Cxnn: `V[x] <- RANDOM() & nn` (R97). -/
def execCxnn (x : Reg) (nn : Byte) (s : State) : Result :=
  let (s1, rb) := s.drawRandom
  .next (s1.setReg x (rb &&& nn)).advance

end Sys2Proof.Machine
end

