-- ==== Sys2Proof/Machine/Control.lean ====
section
/-! DEFINITION. Control flow: return, jump, call, skips and the computed jump (42_control_flow.md R76 to R84). -/

namespace Sys2Proof.Machine

/-- 00EE: return to 2 bytes past the popped address (R76). -/
def exec00EE (s : State) : Result := popAndReturn s

/-- 1nnn: `PC <- nnn` (R77). -/
def exec1nnn (nnn : BitVec 12) (s : State) : Result := .next (s.setPC (zext16 nnn))

/-- 2nnn: push the call's own address, `PC <- nnn` (R78). -/
def exec2nnn (nnn : BitVec 12) (s : State) : Result := pushAndJump s (zext16 nnn)

/-- 3xnn: skip iff `V[x] = nn` (R79). -/
def exec3xnn (x : Reg) (nn : Byte) (s : State) : Result := .next (s.skipIf (s.reg x == nn))

/-- 4xnn: skip iff `V[x] ≠ nn` (R80). -/
def exec4xnn (x : Reg) (nn : Byte) (s : State) : Result := .next (s.skipIf (s.reg x != nn))

/-- 5xy0: skip iff `V[x] = V[y]` (R81). -/
def exec5xy0 (x y : Reg) (s : State) : Result := .next (s.skipIf (s.reg x == s.reg y))

/-- 9xy0: skip iff `V[x] ≠ V[y]` (R82). -/
def exec9xy0 (x y : Reg) (s : State) : Result := .next (s.skipIf (s.reg x != s.reg y))

/-- Bnnn: jump to `(V[0] + nnn) mod 4096`, pushing first when P_BNNN says so (R83). -/
def execBnnn (nnn : BitVec 12) (s : State) : Result :=
  let t : Word := BitVec.ofNat 16 (((s.reg 0).toNat + nnn.toNat) % 4096)
  match s.params.bnnn with
  | .jump => .next (s.setPC t)
  | .pushThenJump => pushAndJump s t

end Sys2Proof.Machine
end

