-- ==== Sys2Proof/Machine/Display.lean ====
section
/-! DEFINITION. The display instructions 00E0 and Dxyn (41_display.md R72 to R75). -/

namespace Sys2Proof.Machine

/-- 00E0: clear every pixel, set REDRAW (R72). -/
def exec00E0 (s : State) : Result := .next (s.setFB Framebuffer.clear).advance

/-- Dxyn: XOR an n-row sprite at (V[x] mod 64, V[y] mod 32), VF <- collision, set REDRAW; the coordinates are read
and the row addresses checked before any write (R73 to R75). -/
def execDxyn (x y : Reg) (n : Fin 16) (s : State) : Result :=
  let cx := (s.reg x).toNat % 64
  let cy := (s.reg y).toNat % 32
  withIndexRange s n.val <|
    let drawn := Blit.sprite ⟨s.fb, false⟩ s.mem (s.indexAddr 0) cx cy n.val
    .next ((s.setFB drawn.fb).setReg vf (if drawn.collide then 1 else 0)).advance

end Sys2Proof.Machine
end

