-- ==== Sys2Proof/Machine/Index.lean ====
section
/-! DEFINITION. Index register and memory instructions (44_index_memory.md R101 to R106). -/

namespace Sys2Proof.Machine

/-- Annn: `I <- nnn` (R101). -/
def execAnnn (nnn : BitVec 12) (s : State) : Result := .next (s.setI (zext16 nnn)).advance

/-- Fx1E: `I <- (I + V[x]) mod 65536`, VF not written (R102). -/
def execFx1E (x : Reg) (s : State) : Result :=
  .next (s.setI (BitVec.ofNat 16 (s.i.toNat + (s.reg x).toNat))).advance

/-- Fx29: `I <- FONT_BASE + V[x] * 5`, V[x] not masked (R103). -/
def execFx29 (x : Reg) (s : State) : Result :=
  .next (s.setI (BitVec.ofNat 16 (fontBase + (s.reg x).toNat * glyphBytes))).advance

/-- The hundreds, tens and ones digits of a byte (R99, R104). -/
def bcdDigits (v : Byte) : List Byte :=
  [BitVec.ofNat 8 (v.toNat / 100), BitVec.ofNat 8 (v.toNat / 10 % 10), BitVec.ofNat 8 (v.toNat % 10)]

/-- Fx33: store the decimal digits of V[x] at I, I + 1, I + 2 (R104). -/
def execFx33 (x : Reg) (s : State) : Result :=
  withIndexRange s 3 <|
    .next { s with mem := s.mem.store (s.indexAddr 0) (bcdDigits (s.reg x)) }.advance

/-- Fx55: store V[0]..V[x] from I on; I unchanged (R105). -/
def execFx55 (x : Reg) (s : State) : Result :=
  withIndexRange s (x.val + 1) <|
    .next { s with mem := s.mem.store (s.indexAddr 0) (s.v.toList.take (x.val + 1)) }.advance

/-- The registers after loading V[0]..V[x] from consecutive addresses from `a` on (R106). -/
def State.loadRegs (s : State) (a : Nat) (x : Reg) : Vector Byte 16 :=
  Vector.ofFn fun r => if r ≤ x then s.mem.read (a + r.val) else s.reg r

/-- Fx65: load V[0]..V[x] from I on, then `I <- (I + x + 1) mod 65536` from the old I (R106). -/
def execFx65 (x : Reg) (s : State) : Result :=
  withIndexRange s (x.val + 1) <|
    .next ({ s with v := s.loadRegs (s.indexAddr 0) x }.setI (BitVec.ofNat 16 (s.i.toNat + x.val + 1))).advance

end Sys2Proof.Machine
end

