-- ==== Sys2Proof/Machine/Keys.lean ====
section
/-! DEFINITION. Key and timer instructions (45_keys_timers.md R108 to R114). -/

namespace Sys2Proof.Machine

/-- Ex9E: skip iff key V[x] is pressed; OutOfBounds with the key number when V[x] > 15 (R108, R110). -/
def execEx9E (x : Reg) (s : State) : Result :=
  match s.keyPressed (s.reg x).toNat with
  | none => raise s (.outOfBounds (s.reg x).toNat)
  | some pressed => .next (s.skipIf pressed)

/-- ExA1: skip iff key V[x] is not pressed; OutOfBounds with the key number when V[x] > 15 (R109, R110). -/
def execExA1 (x : Reg) (s : State) : Result :=
  match s.keyPressed (s.reg x).toNat with
  | none => raise s (.outOfBounds (s.reg x).toNat)
  | some pressed => .next (s.skipIf !pressed)

/-- Fx0A: with a key pressed, `V[x]` <- the lowest one and go on; otherwise change nothing, PC included, so that the
same instruction runs again (R111). -/
def execFx0A (x : Reg) (s : State) : Result :=
  match s.lowestKey with
  | some k => .next (s.setReg x (BitVec.ofNat 8 k)).advance
  | none => .next s

/-- Fx07: `V[x] <- DT`, before this cycle's tick (R112). -/
def execFx07 (x : Reg) (s : State) : Result := .next (s.setReg x s.dt).advance

/-- Fx15: `DT <- V[x]` (R113). -/
def execFx15 (x : Reg) (s : State) : Result := .next (s.setDT (s.reg x)).advance

/-- Fx18: `ST <- V[x]` (R114). -/
def execFx18 (x : Reg) (s : State) : Result := .next (s.setST (s.reg x)).advance

end Sys2Proof.Machine
end

