-- ==== Sys2Proof/Machine/Step.lean ====
section
/-! DEFINITION. One instruction cycle (40_instruction_cycle.md R71): fetch, decode, execute, timer tick; and placing
an instruction word where the next fetch reads it. -/

namespace Sys2Proof.Machine

/-- One step (R71). A fault of any phase ends the step with no change of state (R69). -/
def step (s : State) : Host.Outcome State Fault Refusal :=
  match fetchWord s with
  | .error f => .fault f
  | .ok w =>
    match decodeWord s.params w with
    | none => raise s (.unsupportedOpcode w)
    | some i =>
      match exec i s with
      | .next t => .next (tick i s t)
      | .fault f => .fault f
      | .refused r => .refused r

/-- `s` with the one 16-bit word `w` stored big-endian at PC and PC + 1, where `step` fetches next (R40, R63); no
change where no fetch is possible. It stands for the host's load (R137, log 25). -/
def State.withFetchWord (s : State) (nbits w : Nat) : State :=
  if s.pc.toNat + 1 < memSize then
    { s with mem := s.mem.store s.pc.toNat (wordBytes (BitVec.ofNat 16 (w % 2 ^ nbits))) }
  else s

end Sys2Proof.Machine
end

