-- ==== Sys2Proof/Machine/Environment.lean ====
section
/-! DEFINITION. The host's side of the engine (60_exceptions.md R128 to R133, 70_reset_and_hazards.md R136, R137):
construction, load, the key latch, the redraw protocol, the read-only views, and which actions a run admits. -/

namespace Sys2Proof.Machine

/-- Construct an engine with the given parameters and font table: every field zero, then the font, then PC
(R6, R136). With the defaults it is `State.reset`. -/
def State.construct (p : Params) (font : Vector Byte 80) : State :=
  { State.reset with params := p, mem := Memory.store [] fontBase font.toList }

/-- `load(bytes)`: copy the raw image to MEM from 0x200 on; ProgramTooLarge, with no change, when it does not fit
(R121, R137). -/
def State.load (s : State) (bytes : List Byte) : Except Fault State :=
  if progBase + bytes.length > memSize then .error (.programTooLarge s.pc)
  else .ok { s with mem := s.mem.store progBase bytes }

/-- `set_keys(vector)`: overwrite the key latch wholesale (R24, R129). -/
def State.setKeys (s : State) (keys : Vector Bool 16) : State := { s with key := keys }

/-- `needs_redraw()` (R130). -/
def State.needsRedraw (s : State) : Bool := s.redraw

/-- `take_redraw_flag()`: the flag's value, and the state with it cleared (R130). -/
def State.takeRedrawFlag (s : State) : Bool × State := (s.redraw, { s with redraw := false })

/-- `framebuffer()`: 2048 bytes of value 0 or 1, row-major (R25, R131). -/
def State.framebufferView (s : State) : List Byte :=
  s.fb.toList.flatMap fun row => row.toList.map fun pixel => if pixel then 1 else 0

/-- `registers()`: the 16 bytes V[0..15] (R132). -/
def State.registersView (s : State) : List Byte := s.v.toList

/-- `program_counter()` (R132). -/
def State.programCounter (s : State) : Word := s.pc

/-- `index_register()` (R132). -/
def State.indexRegister (s : State) : Word := s.i

/-- The host's actions (R128). -/
inductive HostAction where
  | load (bytes : List Byte)
  | step
  | setKeys (keys : Vector Bool 16)
  | needsRedraw
  | takeRedrawFlag
  | framebuffer
  | registers
  | programCounter
  | indexRegister
  deriving DecidableEq, Repr

/-- What an action returns (R128). -/
inductive Reply where
  /-- `load` succeeded. -/
  | ok
  /-- `set_keys` returns nothing. -/
  | nothing
  /-- `step` succeeded, with its audio bit; the Audio Sink is called once when it is true (R68, R133). -/
  | stepped (audio : Bool)
  /-- The call failed with this fault (R122). -/
  | failed (f : Fault)
  | flag (b : Bool)
  | bytes (b : List Byte)
  | word (w : Word)
  deriving DecidableEq, Repr

/-- Where a run stands (R122, R137). -/
inductive Phase where
  /-- Constructed; no step has been taken. -/
  | loading
  /-- At least one step has been taken. -/
  | stepping
  /-- A step faulted; the run is over. -/
  | over (f : Fault)
  deriving DecidableEq, Repr

/-- An engine in the hands of its host. -/
structure Session where
  engine : State
  phase : Phase
  deriving DecidableEq, Repr

/-- A freshly constructed engine (R136). -/
def Session.start (p : Params) (font : Vector Byte 80) : Session := ⟨State.construct p font, .loading⟩

/-- The step action: none once the run is over; a fault leaves the engine as it was and ends the run (R69, R122). -/
def Session.stepAction (c : Session) : Option (Reply × Session) :=
  match c.phase with
  | .over _ => none
  | .loading | .stepping =>
    match Machine.step c.engine with
    | .next t => some (.stepped t.audio, ⟨t, .stepping⟩)
    | .fault f => some (.failed f, ⟨c.engine, .over f⟩)
    | .refused _ => none

/-- The load action: only before the first step, any number of times (R137, decision D20). -/
def Session.loadAction (c : Session) (bytes : List Byte) : Option (Reply × Session) :=
  match c.phase with
  | .loading =>
    match c.engine.load bytes with
    | .ok t => some (.ok, ⟨t, .loading⟩)
    | .error f => some (.failed f, c)
  | .stepping | .over _ => none

/-- One host action: what it returns and the session after it; `none` when the host has no such move (R128). The views
stay readable after a fault (R132, decision D27). -/
def Session.act (c : Session) (a : HostAction) : Option (Reply × Session) :=
  match a with
  | .load bytes => c.loadAction bytes
  | .step => c.stepAction
  | .setKeys keys => some (.nothing, { c with engine := c.engine.setKeys keys })
  | .needsRedraw => some (.flag c.engine.needsRedraw, c)
  | .takeRedrawFlag => some (.flag c.engine.takeRedrawFlag.1, { c with engine := c.engine.takeRedrawFlag.2 })
  | .framebuffer => some (.bytes c.engine.framebufferView, c)
  | .registers => some (.bytes c.engine.registersView, c)
  | .programCounter => some (.word c.engine.programCounter, c)
  | .indexRegister => some (.word c.engine.indexRegister, c)

end Sys2Proof.Machine
end

