-- ==== Sys2Proof/Safety.lean ====
section
/-! DEFINITION. What the claims are stated in: the invariant of the engine, when an instruction faults, which places an
instruction may write, closed forms of the sprite and of the flag write, what a program cannot see, and how a run
ends. -/

namespace Sys2Proof.Machine

/-! ### The invariant -/

/-- What every step keeps: memory is canonical; PC is at most 0x1002 (R19, R66); every stack entry is an address an
instruction can be fetched from (R66). -/
structure State.Inv (s : State) : Prop where
  memory_canonical : s.mem.wf
  pc_bounded : s.pc.toNat ≤ 0x1002
  stack_fetchable : ∀ k : Fin 16, s.stack[k.val].toNat ≤ 0xFFE

/-! ### Faults -/

/-- The fault of an index-relative access to `count` bytes, by R116 and R118: the first address above 0xFFF. -/
def rangeFault (s : State) (count : Nat) : Option Fault :=
  if 0 < count ∧ s.i.toNat + (count - 1) > 0xFFF then some (.outOfBounds (max s.i.toNat 0x1000) s.pc) else none

/-- The fault an instruction's own rule raises in a state, if any (R96, R116, R118 to R120). -/
def faultIn (i : Instr) (s : State) : Option Fault :=
  match i with
  | .op00EE => if s.sp = 0 then some (.stackUnderflow s.pc) else none
  | .op2nnn _ => if s.sp = 16 then some (.stackOverflow s.pc) else none
  | .opBnnn _ => if s.params.bnnn = .pushThenJump ∧ s.sp = 16 then some (.stackOverflow s.pc) else none
  | .op8xyE x y => if s.params.shl = .unsupported then some (.unsupportedOpcode (encode (.op8xyE x y)) s.pc) else none
  | .opDxyn _ _ n => rangeFault s n.val
  | .opFx33 _ => rangeFault s 3
  | .opFx55 x | .opFx65 x => rangeFault s (x.val + 1)
  | .opEx9E x | .opExA1 x =>
    if (s.reg x).toNat > 15 then some (.outOfBounds (s.reg x).toNat s.pc) else none
  | _ => none

/-- The address in a fault's record (R123). -/
def Fault.pcOf : Fault → Word
  | .unsupportedOpcode _ pc | .outOfBounds _ pc | .stackOverflow pc | .stackUnderflow pc | .programTooLarge pc => pc

/-! ### What an instruction may write -/

/-- How many bytes from I on the instruction stores to (R42). -/
def storeCount : Instr → Nat
  | .opFx33 _ => 3
  | .opFx55 x => x.val + 1
  | _ => 0

/-- Whether the instruction may write V[r] (R15, R16). -/
def mayWriteReg (i : Instr) (r : Reg) : Bool :=
  match i with
  | .op6xnn x _ | .op7xnn x _ | .opCxnn x _ | .opFx07 x | .opFx0A x => r == x
  | .op8xy0 x _ | .op8xy1 x _ | .op8xy2 x _ | .op8xy3 x _ => r == x
  | .op8xy4 x _ | .op8xy5 x _ | .op8xy6 x _ | .op8xy7 x _ | .op8xyE x _ => r == x || r == 15
  | .opDxyn _ _ _ => r == 15
  | .opFx65 x => decide (r ≤ x)
  | _ => false

/-- The instructions that write I (R17). -/
def mayWriteI : Instr → Bool
  | .opAnnn _ | .opFx1E _ | .opFx29 _ | .opFx65 _ => true
  | _ => false

/-- The instructions that write the framebuffer and set REDRAW (R25, R26). -/
def drawsOnScreen : Instr → Bool
  | .op00E0 | .opDxyn _ _ _ => true
  | _ => false

/-- Whether the instruction pushes on the call stack in an engine with these parameters (R20). -/
def pushesIn (p : Params) : Instr → Bool
  | .op2nnn _ => true
  | .opBnnn _ => p.bnnn == .pushThenJump
  | _ => false

/-- DT as the execute phase leaves it (R67: only Fx15 writes it). -/
def dtAfter (i : Instr) (s : State) : Byte :=
  match i with
  | .opFx15 x => s.reg x
  | _ => s.dt

/-- ST as the execute phase leaves it (R67: only Fx18 writes it). -/
def stAfter (i : Instr) (s : State) : Byte :=
  match i with
  | .opFx18 x => s.reg x
  | _ => s.st

/-! ### Closed forms -/

/-- Whether an n-row sprite at column `cx`, row `cy`, with its bytes from `a` on, has a 1 on pixel (r, c), by R73 and
R74: pixel (r, c) belongs to sprite row `(r - cy) mod 32` and sprite column `(c - cx) mod 64`. -/
def spriteBit (m : Memory) (a cx cy n : Nat) (r : Fin 32) (c : Fin 64) : Bool :=
  let k := (r.val + 32 - cy) % 32
  let b := (c.val + 64 - cx) % 64
  decide (k < n) && decide (b < 8) && (m.read (a + k)).getLsbD (7 - b)

/-- The value register r holds after a flag-producing ALU instruction, in integers, by R91: `flag` and `res` are what
its rule computes from `a = V[x]` and `b = V[y]`. -/
def aluReg (s : State) (flag res : Nat → Nat → Nat) (x y r : Reg) : Nat :=
  let a := (s.reg x).toNat
  let b := (s.reg y).toNat
  let f := flag a b
  let old := (s.reg r).toNat
  match s.params.vfOrder with
  | .flagThenResult => if r = x then res a b else if r = 15 then f else old
  | .resultThenFlag => if r = 15 then f else if r = x then res a b else old
  | .sequential =>
    if r = x then res (if x = 15 then f else a) (if y = 15 then f else b) else if r = 15 then f else old

/-- The row of the opcode map with this pattern and mask decodes, under every parameter value, to the instruction `i`
reads from the word's fields, and no other word does (R55, R56). -/
def DecodesAs (pattern mask : Word) (i : Word → Instr) : Prop :=
  ∀ (p : Params) (w : Word), decodeWord p w = some (i w) ↔ w &&& mask = pattern

/-! ### What a program cannot see -/

/-- The state with what no instruction reads blanked: ST, REDRAW and the audio output (R23, R26, R31). -/
def State.hideOutputs (s : State) : State := { s with st := 0, redraw := false, audio := false }

/-- Two states that differ at most in stack entries at or above SP (R30). -/
def State.SameBelowSP (s t : State) : Prop :=
  t = { s with stack := t.stack } ∧ ∀ k : Fin 16, k.val < s.sp.val → t.stack[k.val] = s.stack[k.val]

/-- Two outcomes that are the same fault, or next states related by `rel`. -/
def SameOutcome (rel : State → State → Prop) (a b : Result) : Prop :=
  match a, b with
  | .next s, .next t => rel s t
  | .fault f, .fault g => f = g
  | _, _ => False

/-! ### The end of a run -/

/-- A step from `s` is a designated stop: the instruction at PC is a jump to itself (R145). -/
def State.atDesignatedStop (s : State) : Bool :=
  decide (s.pc.toNat ≤ 0xFFE) &&
    (bigEndian (s.mem.read s.pc.toNat) (s.mem.read (s.pc.toNat + 1)) == (0x1000 ||| s.pc))

/-- How a run ended, or where it stands when the steps asked for are used up (R145). -/
inductive RunEnd where
  /-- The pre-state of the first designated stop. -/
  | stopped (s : State)
  /-- A fault and the state it left unchanged. -/
  | faulted (f : Fault) (s : State)
  | unfinished (s : State)
  deriving DecidableEq, Repr

/-- The state after one step per key vector, the host setting the latch before each (R129), whether or not a state on
the way is a designated stop; none once a step does not succeed. -/
def stateAfter : List (Vector Bool 16) → State → Option State
  | [], s => some s
  | keys :: rest, s =>
    match step (s.setKeys keys) with
    | .next t => stateAfter rest t
    | .fault _ | .refused _ => none

/-- Run one step per key vector, the host setting the latch before each (R129), to the first designated stop or fault
(R145). The engine itself never stops at such a jump. -/
def runToStop : List (Vector Bool 16) → State → RunEnd
  | [], s => if s.atDesignatedStop then .stopped s else .unfinished s
  | keys :: rest, s =>
    if s.atDesignatedStop then .stopped s
    else
      match step (s.setKeys keys) with
      | .next t => runToStop rest t
      | .fault f => .faulted f (s.setKeys keys)
      | .refused _ => .unfinished s

end Sys2Proof.Machine
end

