-- ==== Sys2Proof/Certificates/Slice0/Obligations.lean ====
section
/-! DEFINITION. The statements for the provers, one per entry of OBLIGATIONS.json. A per-instruction statement says the
row's encoding (`DecodesAs`), that the execute phase answers a next state, what that state holds, and, by an equation
`t = { s with … }`, that every other field of the state is unchanged. -/

open Sys2Proof Sys2Proof.Machine

/-! ### Encoding -/

/-- Decoding an encoded instruction gives it back, as a word and in front of any bytes (30_encoding.md). -/
def Obligations.DecodeOfEncode : Prop :=
  ∀ (p : Params) (i : Instr) (rest : List Byte), i.wf p = true →
    decodeWord p (encode i) = some i ∧ decode p (wordBytes (encode i) ++ rest) = .ok (i, rest)

/-- A word that decodes is the encoding of what it decodes to, and that instruction exists under the parameters. -/
def Obligations.EncodeOfDecode : Prop :=
  ∀ (p : Params) (w : Word) (i : Instr), decodeWord p w = some i → encode i = w ∧ i.wf p = true

/-- R56: decoding is the one matching row of the opcode map (8xyE's row only under ShiftLeft), `none` when no row
matches; at most one row matches a word; P_SHL is the only parameter read. -/
def Obligations.DecodeIsTheMatchingRow : Prop :=
  (∀ (p : Params) (w : Word) (i : Instr), decodeWord p w = some i → i.row ∈ opcodeMap ∧ i.row.covers w = true) ∧
  (∀ (p : Params) (w : Word), decodeWord p w = none ↔
    ∀ r ∈ opcodeMap, r.covers w = true → r = ⟨0x800E, 0xF00F⟩ ∧ p.shl = .unsupported) ∧
  (∀ (w : Word), ∀ r ∈ opcodeMap, ∀ r' ∈ opcodeMap, r.covers w = true → r'.covers w = true → r = r') ∧
  (∀ (p q : Params), p.shl = q.shl → decodeWord p = decodeWord q)

/-- R57: exactly the listed words are unsupported, their step raises UnsupportedOpcode, and they are 21838 of the
65536 words, or 21582 when P_SHL = ShiftLeft. The exact match of every literal digit is the spec's decision D5 (log
22), P_SHL its decision D3 (log 2). -/
def Obligations.UnsupportedWords : Prop :=
  (∀ (p : Params) (w : Word), decodeWord p w = none ↔
    (fieldF w = 0x0 ∧ w ≠ 0x00E0 ∧ w ≠ 0x00EE) ∨
    (fieldF w = 0x5 ∧ (fieldN w).val ≠ 0) ∨
    (fieldF w = 0x8 ∧ ((fieldN w).val ∈ [0x8, 0x9, 0xA, 0xB, 0xC, 0xD, 0xF] ∨
      ((fieldN w).val = 0xE ∧ p.shl = .unsupported))) ∨
    (fieldF w = 0x9 ∧ (fieldN w).val ≠ 0) ∨
    (fieldF w = 0xE ∧ (fieldNN w).toNat ∉ [0x9E, 0xA1]) ∨
    (fieldF w = 0xF ∧ (fieldNN w).toNat ∉ [0x07, 0x0A, 0x15, 0x18, 0x1E, 0x29, 0x33, 0x55, 0x65])) ∧
  (∀ (s : State) (w : Word), fetchWord s = .ok w → decodeWord s.params w = none →
    step s = .fault (.unsupportedOpcode w s.pc)) ∧
  (∀ (p : Params), ((List.range 65536).filter fun k => (decodeWord p (BitVec.ofNat 16 k)).isNone).length =
    if p.shl = .unsupported then 21838 else 21582)

/-- Words written out from the encodings of R55, at least one of each of the 16 families (w[15:12]), and what they
stand for; and words that stand for nothing. -/
def Obligations.WordsOfEveryFamilyDecode : Prop :=
  ∀ (p : Params),
    decodeWord p 0x00E0 = some .op00E0 ∧ decodeWord p 0x1234 = some (.op1nnn 0x234) ∧
    decodeWord p 0x2210 = some (.op2nnn 0x210) ∧ decodeWord p 0x3342 = some (.op3xnn 3 0x42) ∧
    decodeWord p 0x4342 = some (.op4xnn 3 0x42) ∧ decodeWord p 0x5120 = some (.op5xy0 1 2) ∧
    decodeWord p 0x6A2B = some (.op6xnn 10 0x2B) ∧ decodeWord p 0x7220 = some (.op7xnn 2 0x20) ∧
    decodeWord p 0x8124 = some (.op8xy4 1 2) ∧ decodeWord p 0x9120 = some (.op9xy0 1 2) ∧
    decodeWord p 0xA2F0 = some (.opAnnn 0x2F0) ∧ decodeWord p 0xBFFF = some (.opBnnn 0xFFF) ∧
    decodeWord p 0xC30F = some (.opCxnn 3 0x0F) ∧ decodeWord p 0xD12F = some (.opDxyn 1 2 15) ∧
    decodeWord p 0xE5A1 = some (.opExA1 5) ∧ decodeWord p 0xF265 = some (.opFx65 2) ∧
    decodeWord p 0x0000 = none ∧ decodeWord p 0x5121 = none ∧ decodeWord p 0xF1FF = none

/-! ### The instruction cycle -/

/-- R63: fetch gives the big-endian word at PC and PC + 1, at an even or odd PC, exactly when PC is at most 0xFFE, and
otherwise OutOfBounds with the first address past the end. -/
def Obligations.FetchIsBigEndianAndBounded : Prop :=
  ∀ (s : State),
    (s.pc.toNat ≤ 0xFFE → ∃ w, fetchWord s = .ok w ∧
      w.toNat = (s.mem.read s.pc.toNat).toNat * 256 + (s.mem.read (s.pc.toNat + 1)).toNat) ∧
    (s.pc.toNat = 0xFFF → fetchWord s = .error (.outOfBounds 0x1000 s.pc)) ∧
    (0xFFF < s.pc.toNat → fetchWord s = .error (.outOfBounds s.pc.toNat s.pc))

/-- R71: the whole step. A fetch fault or an unsupported word ends it; otherwise it is `exec` of the decoded
instruction, whose fault ends it, and after which the audio bit is taken and ST and DT are each decremented when not
0. That State holds the audio bit is the model's choice (log 5); P_AUDIO is the spec's decision D16 (log 9). -/
def Obligations.StepRunsTheDecodedInstruction : Prop :=
  ∀ (s : State),
    (0xFFF < s.pc.toNat → step s = .fault (.outOfBounds s.pc.toNat s.pc)) ∧
    (s.pc.toNat = 0xFFF → step s = .fault (.outOfBounds 0x1000 s.pc)) ∧
    (s.pc.toNat ≤ 0xFFE → ∀ w : Word,
      w.toNat = (s.mem.read s.pc.toNat).toNat * 256 + (s.mem.read (s.pc.toNat + 1)).toNat →
      (decodeWord s.params w = none → step s = .fault (.unsupportedOpcode w s.pc)) ∧
      (∀ i, decodeWord s.params w = some i →
        (∀ f, exec i s = .fault f → step s = .fault f) ∧
        (∀ t, exec i s = .next t →
          ∃ b, step s = .next { t with
              audio := b
              st := if t.st ≠ 0 then t.st - 1 else t.st
              dt := if t.dt ≠ 0 then t.dt - 1 else t.dt } ∧
            (s.params.audio = .perActiveCycle → (b = true ↔ t.st ≠ 0)) ∧
            (s.params.audio = .perActivation → (b = true ↔ ∃ x, i = .opFx18 x ∧ s.reg x ≠ 0)))))

/-- R67: a successful step decrements DT and ST once, as the execute phase left them, unless they are 0. That Fx18
stores V[x] is the spec's decision D15 (log 15). -/
def Obligations.TimersTickOncePerStep : Prop :=
  ∀ (s t : State) (w : Word) (i : Instr),
    fetchWord s = .ok w → decodeWord s.params w = some i → step s = .next t →
    t.dt.toNat = (dtAfter i s).toNat - 1 ∧ t.st.toNat = (stAfter i s).toNat - 1

/-- R68: the audio bit of a successful step, under each value of P_AUDIO (the spec's decision D16, log 9; the field
that holds the bit is the model's, log 5). -/
def Obligations.AudioBitOfAStep : Prop :=
  ∀ (s t : State) (w : Word) (i : Instr),
    fetchWord s = .ok w → decodeWord s.params w = some i → step s = .next t →
    (s.params.audio = .perActiveCycle → (t.audio = true ↔ stAfter i s ≠ 0)) ∧
    (s.params.audio = .perActivation → (t.audio = true ↔ ∃ x, i = .opFx18 x ∧ s.reg x ≠ 0))

/-- R11, R115: a step answers a next state or one of the four step faults, whose record holds the PC of the step; it
refuses nothing. The record is the spec's decision D21 (log 18). -/
def Obligations.StepEndsInNextOrOneOfFourFaults : Prop :=
  ∀ (s : State), (∃ t, step s = .next t) ∨ ∃ f, step s = .fault f ∧ f.pcOf = s.pc ∧
    ((∃ w, f = .unsupportedOpcode w s.pc) ∨ (∃ a, f = .outOfBounds a s.pc) ∨ f = .stackOverflow s.pc ∨
      f = .stackUnderflow s.pc)

/-- R116, R118 to R120: the execute phase of every instruction raises exactly the fault its rule names, where its rule
names one, and completes with a next state everywhere else. The check before every write, the exact addresses, the key
fault and 8xyE are the spec's decisions D22, D8, D10 and D3 (log 18, 11, 12, 2). -/
def Obligations.ExecFaultsExactlyWhereItsRuleSays : Prop :=
  ∀ (i : Instr) (s : State),
    (∀ f, faultIn i s = some f → exec i s = .fault f) ∧ (faultIn i s = none → ∃ t, exec i s = .next t)

/-- Where PC goes, for every instruction: the five kinds of update of R65, with the targets and conditions of R76 to
R83, R108, R109 and R111. That Ex9E and ExA1 complete only with V[x] at most 15 is the spec's decision D10 (R110, log
12), and the exact 16-bit PC its decision D6 (log 10). -/
def Obligations.ProgramCounterUpdates : Prop :=
  ∀ (i : Instr) (s t : State), exec i s = .next t →
    match i with
    | .op1nnn nnn | .op2nnn nnn => t.pc.toNat = nnn.toNat
    | .opBnnn nnn => t.pc.toNat = ((s.reg 0).toNat + nnn.toNat) % 4096
    | .op00EE => ∃ k : Fin 16, k.val + 1 = s.sp.val ∧ t.pc = s.stack[k.val] + 2
    | .op3xnn x nn => t.pc = if s.reg x = nn then s.pc + 4 else s.pc + 2
    | .op4xnn x nn => t.pc = if s.reg x = nn then s.pc + 2 else s.pc + 4
    | .op5xy0 x y => t.pc = if s.reg x = s.reg y then s.pc + 4 else s.pc + 2
    | .op9xy0 x y => t.pc = if s.reg x = s.reg y then s.pc + 2 else s.pc + 4
    | .opEx9E x => ∃ k : Fin 16, (s.reg x).toNat = k.val ∧ t.pc = if s.key[k.val] then s.pc + 4 else s.pc + 2
    | .opExA1 x => ∃ k : Fin 16, (s.reg x).toNat = k.val ∧ t.pc = if s.key[k.val] then s.pc + 2 else s.pc + 4
    | .opFx0A _ => if ∃ k : Fin 16, s.key[k.val] = true then t.pc = s.pc + 2 else t.pc = s.pc
    | _ => t.pc = s.pc + 2

/-! ### What instructions leave unchanged -/

/-- R42: no instruction changes a byte of memory outside the bytes it stores to, which are the `storeCount` bytes from
I on; so only Fx33 and Fx55 change memory at all. -/
def Obligations.MemoryUnchangedOutsideStores : Prop :=
  ∀ (i : Instr) (s t : State), exec i s = .next t →
    ∀ a, (∀ k, k < storeCount i → a ≠ s.indexAddr k) → t.mem.read a = s.mem.read a

/-- R15, R16: a general register the instruction does not write keeps its value. -/
def Obligations.RegistersUnchangedUnlessWritten : Prop :=
  ∀ (i : Instr) (s t : State) (r : Reg), exec i s = .next t → mayWriteReg i r = false → t.reg r = s.reg r

/-- R17, R22 to R26: I, FB, REDRAW, DT and ST are written only by the instructions the state rules name, REDRAW is
never cleared, and no instruction writes KEY, the parameters or the audio output. Fx18's value is the spec's decision
D15 (log 15); the fields `params`, `draws` and `audio` are the model's (log 1, 4, 5). -/
def Obligations.SpecialRegistersUnchangedUnlessWritten : Prop :=
  ∀ (i : Instr) (s t : State), exec i s = .next t →
    (mayWriteI i = false → t.i = s.i) ∧
    (drawsOnScreen i = false → t.fb = s.fb ∧ t.redraw = s.redraw) ∧
    (drawsOnScreen i = true → t.redraw = true) ∧
    t.dt = dtAfter i s ∧ t.st = stAfter i s ∧
    t.key = s.key ∧ t.params = s.params ∧ t.audio = s.audio ∧
    ((∀ x nn, i ≠ .opCxnn x nn) → t.draws = s.draws)

/-- R20, R21: SP goes up by one at a push (2nnn, and Bnnn under PushThenJump), down by one at 00EE and is otherwise
unchanged; a push writes its own address to STACK[SP] and nothing else writes a stack entry. That a pop leaves the
entry and that Bnnn pushes like 2nnn are the spec's decisions D30 and D4 (log 21, 8). -/
def Obligations.CallStackUnchangedUnlessPushedOrPopped : Prop :=
  ∀ (i : Instr) (s t : State), exec i s = .next t →
    (pushesIn s.params i = true → t.sp.val = s.sp.val + 1 ∧
      ∀ k : Fin 16, t.stack[k.val] = if k.val = s.sp.val then s.pc else s.stack[k.val]) ∧
    (i = .op00EE → t.sp.val + 1 = s.sp.val) ∧
    (pushesIn s.params i = false → t.stack = s.stack) ∧
    (pushesIn s.params i = false → i ≠ .op00EE → t.sp = s.sp)

/-- R24, R70: a step never changes the key latch, nor the parameters of the engine (whose place in State is the
model's choice, log 1). -/
def Obligations.StepKeepsKeysAndParameters : Prop :=
  ∀ (s t : State), step s = .next t → t.key = s.key ∧ t.params = s.params

/-! ### The invariant -/

/-- From every state that meets the invariant, a step gives a state that meets it (R19, R66, the spec's decision D6,
log 10; the canonical form of memory is the model's, log 24). -/
def Obligations.StepKeepsTheInvariant : Prop :=
  ∀ (s t : State), s.Inv → step s = .next t → t.Inv

/-- The engine as constructed meets the invariant, with every parameter value and every font; and reset is the
construction with the defaults. The canonical form of memory, and that an unlisted byte reads as the default font, are
the model's choice (log 24); the default font is PRESUMED (log 3); the bound on PC is the spec's decision D6 (log 10).
-/
def Obligations.ConstructionMeetsTheInvariant : Prop :=
  State.reset.Inv ∧ State.construct defaultParams defaultFont = State.reset ∧
    ∀ (p : Params) (font : Vector Byte 80), (State.construct p font).Inv

/-- Every action of the host keeps the invariant (R128). The bound on PC is the spec's decision D6 (log 10); the
canonical form of memory is the model's (log 24). -/
def Obligations.HostActionsKeepTheInvariant : Prop :=
  ∀ (c d : Session) (a : HostAction) (r : Reply), c.engine.Inv → c.act a = some (r, d) → d.engine.Inv

/-! ### What a program cannot observe -/

/-- R23, R26, R30: no instruction reads ST, REDRAW or the audio output. Two states that differ only in these step to
the same fault, or to states that differ only in these. The field `audio` is the model's (log 5). -/
def Obligations.OutputsAreInvisibleToPrograms : Prop :=
  ∀ (s t : State), s.hideOutputs = t.hideOutputs →
    SameOutcome (fun s' t' => s'.hideOutputs = t'.hideOutputs) (step s) (step t)

/-- R30 (a): stack entries at or above SP are never observed. Two states that differ only in these step to the same
fault, or to states that differ only in these. -/
def Obligations.StackAboveSPIsInvisible : Prop :=
  ∀ (s t : State), s.SameBelowSP t → SameOutcome State.SameBelowSP (step s) (step t)

/-! ### Display -/

/-- R72: 00E0. -/
def Obligations.ClearScreen : Prop :=
  DecodesAs 0x00E0 0xFFFF (fun _ => .op00E0) ∧
  ∀ (s : State), ∃ t, exec .op00E0 s = .next t ∧
    (∀ (r : Fin 32) (c : Fin 64), t.fb[r.val][c.val] = false) ∧
    t = { s with fb := t.fb, redraw := true, pc := s.pc + 2 }

/-- R73 to R75: Dxyn in closed form. Every pixel is XORed with the sprite's bit there, VF says whether a lit pixel was
turned off, and with n = 0 nothing is drawn whatever I is; past 0xFFF it faults instead. The row and bit order, the
coordinates read before any write, and n = 0 are the spec's decisions D13 and D12 and its general knowledge (log 14);
the fault without a wrap is its decision D8 (log 11). -/
def Obligations.DrawSprite : Prop :=
  DecodesAs 0xD000 0xF000 (fun w => .opDxyn (fieldX w) (fieldY w) (fieldN w)) ∧
  ∀ (s : State) (x y : Reg) (n : Fin 16),
    (n.val = 0 ∨ s.i.toNat + n.val ≤ 0x1000 → ∃ t, exec (.opDxyn x y n) s = .next t ∧
      (∀ (r : Fin 32) (c : Fin 64), t.fb[r.val][c.val] =
        (s.fb[r.val][c.val] ^^
          spriteBit s.mem s.i.toNat ((s.reg x).toNat % 64) ((s.reg y).toNat % 32) n.val r c)) ∧
      ((∃ (r : Fin 32) (c : Fin 64), s.fb[r.val][c.val] = true ∧
          spriteBit s.mem s.i.toNat ((s.reg x).toNat % 64) ((s.reg y).toNat % 32) n.val r c = true) →
        t.reg 15 = 1) ∧
      ((∀ (r : Fin 32) (c : Fin 64), s.fb[r.val][c.val] = true →
          spriteBit s.mem s.i.toNat ((s.reg x).toNat % 64) ((s.reg y).toNat % 32) n.val r c = false) →
        t.reg 15 = 0) ∧
      t = { s with fb := t.fb, redraw := true, v := s.v.set 15 (t.reg 15), pc := s.pc + 2 }) ∧
    (0 < n.val → 0x1000 < s.i.toNat + n.val →
      exec (.opDxyn x y n) s = .fault (.outOfBounds (max s.i.toNat 0x1000) s.pc))

/-- Drawing the same sprite twice at the same place restores the framebuffer, and on a clear screen the second draw
collides exactly when the sprite has a lit bit (source §8; layout log 14). -/
def Obligations.DrawingTwiceRestoresTheScreen : Prop :=
  ∀ (s t u : State) (x y : Reg) (n : Fin 16), x ≠ 15 → y ≠ 15 →
    exec (.opDxyn x y n) s = .next t → exec (.opDxyn x y n) t = .next u →
    u.fb = s.fb ∧
    (s.fb = Framebuffer.clear → (u.reg 15 = 1 ↔ ∃ k, k < n.val ∧ s.mem.read (s.i.toNat + k) ≠ 0))

/-! ### Control flow -/

/-- R76: 00EE. -/
def Obligations.ReturnFromSubroutine : Prop :=
  DecodesAs 0x00EE 0xFFFF (fun _ => .op00EE) ∧
  ∀ (s : State),
    (s.sp.val = 0 → exec .op00EE s = .fault (.stackUnderflow s.pc)) ∧
    (∀ k : Fin 16, s.sp.val = k.val + 1 → ∃ t, exec .op00EE s = .next t ∧ t.sp.val = k.val ∧
      t = { s with sp := t.sp, pc := s.stack[k.val] + 2 })

/-- R77: 1nnn. -/
def Obligations.JumpToAddress : Prop :=
  DecodesAs 0x1000 0xF000 (fun w => .op1nnn (fieldNNN w)) ∧
  ∀ (s : State) (nnn : BitVec 12), ∃ t, exec (.op1nnn nnn) s = .next t ∧ t.pc.toNat = nnn.toNat ∧
    t = { s with pc := t.pc }

/-- R78: 2nnn. -/
def Obligations.CallSubroutine : Prop :=
  DecodesAs 0x2000 0xF000 (fun w => .op2nnn (fieldNNN w)) ∧
  ∀ (s : State) (nnn : BitVec 12),
    (s.sp.val = 16 → exec (.op2nnn nnn) s = .fault (.stackOverflow s.pc)) ∧
    (∀ k : Fin 16, s.sp.val = k.val → ∃ t, exec (.op2nnn nnn) s = .next t ∧
      t.sp.val = k.val + 1 ∧ t.pc.toNat = nnn.toNat ∧
      t = { s with stack := s.stack.set k.val s.pc, sp := t.sp, pc := t.pc })

/-- A call followed at once by a return lands on the instruction after the call, with the stack pointer as before
(source §8). -/
def Obligations.CallThenReturn : Prop :=
  ∀ (s t : State) (nnn : BitVec 12), exec (.op2nnn nnn) s = .next t →
    ∃ u, exec .op00EE t = .next u ∧ u.pc = s.pc + 2 ∧ u = { s with pc := u.pc, stack := u.stack }

/-- R79, R80: 3xnn and 4xnn. -/
def Obligations.SkipOnImmediate : Prop :=
  DecodesAs 0x3000 0xF000 (fun w => .op3xnn (fieldX w) (fieldNN w)) ∧
  DecodesAs 0x4000 0xF000 (fun w => .op4xnn (fieldX w) (fieldNN w)) ∧
  ∀ (s : State) (x : Reg) (nn : Byte),
    exec (.op3xnn x nn) s = .next { s with pc := if s.reg x = nn then s.pc + 4 else s.pc + 2 } ∧
    exec (.op4xnn x nn) s = .next { s with pc := if s.reg x ≠ nn then s.pc + 4 else s.pc + 2 }

/-- R81, R82: 5xy0 and 9xy0. -/
def Obligations.SkipOnRegisters : Prop :=
  DecodesAs 0x5000 0xF00F (fun w => .op5xy0 (fieldX w) (fieldY w)) ∧
  DecodesAs 0x9000 0xF00F (fun w => .op9xy0 (fieldX w) (fieldY w)) ∧
  ∀ (s : State) (x y : Reg),
    exec (.op5xy0 x y) s = .next { s with pc := if s.reg x = s.reg y then s.pc + 4 else s.pc + 2 } ∧
    exec (.op9xy0 x y) s = .next { s with pc := if s.reg x ≠ s.reg y then s.pc + 4 else s.pc + 2 }

/-- R83: Bnnn under each value of P_BNNN, the spec's decision D4 (log 8). -/
def Obligations.ComputedJump : Prop :=
  DecodesAs 0xB000 0xF000 (fun w => .opBnnn (fieldNNN w)) ∧
  ∀ (s : State) (nnn : BitVec 12),
    (s.params.bnnn = .jump → ∃ t, exec (.opBnnn nnn) s = .next t ∧
      t.pc.toNat = ((s.reg 0).toNat + nnn.toNat) % 4096 ∧ t = { s with pc := t.pc }) ∧
    (s.params.bnnn = .pushThenJump →
      (s.sp.val = 16 → exec (.opBnnn nnn) s = .fault (.stackOverflow s.pc)) ∧
      (∀ k : Fin 16, s.sp.val = k.val → ∃ t, exec (.opBnnn nnn) s = .next t ∧
        t.sp.val = k.val + 1 ∧ t.pc.toNat = ((s.reg 0).toNat + nnn.toNat) % 4096 ∧
        t = { s with stack := s.stack.set k.val s.pc, sp := t.sp, pc := t.pc }))

/-! ### Registers and ALU -/

/-- R85, R86: 6xnn and 7xnn. -/
def Obligations.LoadAndAddImmediate : Prop :=
  DecodesAs 0x6000 0xF000 (fun w => .op6xnn (fieldX w) (fieldNN w)) ∧
  DecodesAs 0x7000 0xF000 (fun w => .op7xnn (fieldX w) (fieldNN w)) ∧
  ∀ (s : State) (x : Reg) (nn : Byte),
    exec (.op6xnn x nn) s = .next { s with v := s.v.set x.val nn, pc := s.pc + 2 } ∧
    ∃ t, exec (.op7xnn x nn) s = .next t ∧ (t.reg x).toNat = ((s.reg x).toNat + nn.toNat) % 256 ∧
      t = { s with v := s.v.set x.val (t.reg x), pc := s.pc + 2 }

/-- R87 to R90: 8xy0, 8xy1, 8xy2 and 8xy3, bit by bit; VF is unchanged unless x = 15 (the spec's
decision D2, log 17). -/
def Obligations.CopyAndBitwiseOperations : Prop :=
  DecodesAs 0x8000 0xF00F (fun w => .op8xy0 (fieldX w) (fieldY w)) ∧
  DecodesAs 0x8001 0xF00F (fun w => .op8xy1 (fieldX w) (fieldY w)) ∧
  DecodesAs 0x8002 0xF00F (fun w => .op8xy2 (fieldX w) (fieldY w)) ∧
  DecodesAs 0x8003 0xF00F (fun w => .op8xy3 (fieldX w) (fieldY w)) ∧
  ∀ (s : State) (x y : Reg),
    exec (.op8xy0 x y) s = .next { s with v := s.v.set x.val (s.reg y), pc := s.pc + 2 } ∧
    (∃ t, exec (.op8xy1 x y) s = .next t ∧ t = { s with v := s.v.set x.val (t.reg x), pc := s.pc + 2 } ∧
      ∀ k, (t.reg x).getLsbD k = ((s.reg x).getLsbD k || (s.reg y).getLsbD k)) ∧
    (∃ t, exec (.op8xy2 x y) s = .next t ∧ t = { s with v := s.v.set x.val (t.reg x), pc := s.pc + 2 } ∧
      ∀ k, (t.reg x).getLsbD k = ((s.reg x).getLsbD k && (s.reg y).getLsbD k)) ∧
    (∃ t, exec (.op8xy3 x y) s = .next t ∧ t = { s with v := s.v.set x.val (t.reg x), pc := s.pc + 2 } ∧
      ∀ k, (t.reg x).getLsbD k = ((s.reg x).getLsbD k ^^ (s.reg y).getLsbD k))

/-- R91: the write order of the flag-producing instructions does not matter when neither operand is register 15: the
three values of P_VF_ORDER (the spec's decision D1, log 7) give the same state, up to the parameter itself. -/
def Obligations.FlagWriteOrdersAgreeAwayFromVF : Prop :=
  ∀ (s t t' : State) (o : VfOrder) (i : Instr) (x y : Reg), x ≠ 15 → y ≠ 15 →
    i ∈ [Instr.op8xy4 x y, .op8xy5 x y, .op8xy6 x y, .op8xy7 x y, .op8xyE x y] →
    exec i s = .next t → exec i { s with params := { s.params with vfOrder := o } } = .next t' →
    { t' with params := s.params } = t

/-- R91, R92: 8xy4, with the write order each value of P_VF_ORDER gives (the spec's decision D1, log 7). -/
def Obligations.AddWithCarry : Prop :=
  DecodesAs 0x8004 0xF00F (fun w => .op8xy4 (fieldX w) (fieldY w)) ∧
  ∀ (s : State) (x y : Reg), ∃ t, exec (.op8xy4 x y) s = .next t ∧
    (∀ r, (t.reg r).toNat =
      aluReg s (fun a b => if a + b > 255 then 1 else 0) (fun a b => (a + b) % 256) x y r) ∧
    t = { s with v := t.v, pc := s.pc + 2 }

/-- R91, R93, R95: 8xy5 and 8xy7, with the strict no-borrow flags; the write order is the spec's decision D1 (log 7).
-/
def Obligations.SubtractBothWays : Prop :=
  DecodesAs 0x8005 0xF00F (fun w => .op8xy5 (fieldX w) (fieldY w)) ∧
  DecodesAs 0x8007 0xF00F (fun w => .op8xy7 (fieldX w) (fieldY w)) ∧
  ∀ (s : State) (x y : Reg),
    (∃ t, exec (.op8xy5 x y) s = .next t ∧
      (∀ r, (t.reg r).toNat =
        aluReg s (fun a b => if a > b then 1 else 0) (fun a b => (a + 256 - b) % 256) x y r) ∧
      t = { s with v := t.v, pc := s.pc + 2 }) ∧
    (∃ t, exec (.op8xy7 x y) s = .next t ∧
      (∀ r, (t.reg r).toNat =
        aluReg s (fun a b => if b > a then 1 else 0) (fun a b => (b + 256 - a) % 256) x y r) ∧
      t = { s with v := t.v, pc := s.pc + 2 })

/-- R91, R94, R96: 8xy6 under every parameter value, and 8xyE, which exists only under ShiftLeft and is unsupported
otherwise. P_SHL is the spec's decision D3 and its general knowledge (log 2), the write order its decision D1 (log
7). -/
def Obligations.ShiftBothWays : Prop :=
  DecodesAs 0x8006 0xF00F (fun w => .op8xy6 (fieldX w) (fieldY w)) ∧
  (∀ (p : Params) (w : Word), w &&& 0xF00F = 0x800E → decodeWord p w =
    if p.shl = .shiftLeft then some (.op8xyE (fieldX w) (fieldY w)) else none) ∧
  ∀ (s : State) (x y : Reg),
    (∃ t, exec (.op8xy6 x y) s = .next t ∧
      (∀ r, (t.reg r).toNat = aluReg s (fun a _ => a % 2) (fun a _ => a / 2) x y r) ∧
      t = { s with v := t.v, pc := s.pc + 2 }) ∧
    (s.params.shl = .shiftLeft → ∃ t, exec (.op8xyE x y) s = .next t ∧
      (∀ r, (t.reg r).toNat = aluReg s (fun a _ => a / 128 % 2) (fun a _ => a * 2 % 256) x y r) ∧
      t = { s with v := t.v, pc := s.pc + 2 }) ∧
    (s.params.shl = .unsupported →
      exec (.op8xyE x y) s = .fault (.unsupportedOpcode (encode (.op8xyE x y)) s.pc))

/-- R97: Cxnn. The draw is the oracle's next byte, whatever it is; a bit of the result can be 1 only where nn has one.
The counter `draws` and the oracle `Config.randomByte` are the model's own (log 4). -/
def Obligations.RandomByteMasked : Prop :=
  DecodesAs 0xC000 0xF000 (fun w => .opCxnn (fieldX w) (fieldNN w)) ∧
  ∀ (s : State) (x : Reg) (nn : Byte), ∃ t, exec (.opCxnn x nn) s = .next t ∧
    (∀ k, (t.reg x).getLsbD k = ((Config.randomByte s.draws).getLsbD k && nn.getLsbD k)) ∧
    t = { s with v := s.v.set x.val (t.reg x), draws := s.draws + 1, pc := s.pc + 2 }

/-! ### Index register and memory -/

/-- R101: Annn. -/
def Obligations.LoadIndex : Prop :=
  DecodesAs 0xA000 0xF000 (fun w => .opAnnn (fieldNNN w)) ∧
  ∀ (s : State) (nnn : BitVec 12), ∃ t, exec (.opAnnn nnn) s = .next t ∧ t.i.toNat = nnn.toNat ∧
    t = { s with i := t.i, pc := s.pc + 2 }

/-- R102, R103: Fx1E and Fx29. The 16-bit width of I, the untouched VF and the unmasked V[x] are the spec's decisions
D7 and D18 (log 11, 17, 16). -/
def Obligations.AddToIndexAndPointAtGlyph : Prop :=
  DecodesAs 0xF01E 0xF0FF (fun w => .opFx1E (fieldX w)) ∧
  DecodesAs 0xF029 0xF0FF (fun w => .opFx29 (fieldX w)) ∧
  ∀ (s : State) (x : Reg),
    (∃ t, exec (.opFx1E x) s = .next t ∧ t.i.toNat = (s.i.toNat + (s.reg x).toNat) % 65536 ∧
      t = { s with i := t.i, pc := s.pc + 2 }) ∧
    (∃ t, exec (.opFx29 x) s = .next t ∧ t.i.toNat = 0x050 + (s.reg x).toNat * 5 ∧
      t = { s with i := t.i, pc := s.pc + 2 })

/-- R104: Fx33. Reading the digits back takes a canonical memory, an invariant of every step. -/
def Obligations.StoreDecimalDigits : Prop :=
  DecodesAs 0xF033 0xF0FF (fun w => .opFx33 (fieldX w)) ∧
  ∀ (s : State) (x : Reg),
    (s.i.toNat + 2 ≤ 0xFFF → ∃ t, exec (.opFx33 x) s = .next t ∧
      (s.mem.wf → (t.mem.read s.i.toNat).toNat = (s.reg x).toNat / 100 ∧
        (t.mem.read (s.i.toNat + 1)).toNat = (s.reg x).toNat / 10 % 10 ∧
        (t.mem.read (s.i.toNat + 2)).toNat = (s.reg x).toNat % 10) ∧
      (∀ a, a < s.i.toNat ∨ s.i.toNat + 2 < a → t.mem.read a = s.mem.read a) ∧
      t = { s with mem := t.mem, pc := s.pc + 2 }) ∧
    (0xFFF < s.i.toNat + 2 → exec (.opFx33 x) s = .fault (.outOfBounds (max s.i.toNat 0x1000) s.pc))

/-- R105: Fx55; I is unchanged. Reading the bytes back takes a canonical memory, an invariant of every step. -/
def Obligations.StoreRegisters : Prop :=
  DecodesAs 0xF055 0xF0FF (fun w => .opFx55 (fieldX w)) ∧
  ∀ (s : State) (x : Reg),
    (s.i.toNat + x.val ≤ 0xFFF → ∃ t, exec (.opFx55 x) s = .next t ∧
      (s.mem.wf → ∀ r : Reg, r ≤ x → t.mem.read (s.i.toNat + r.val) = s.reg r) ∧
      (∀ a, a < s.i.toNat ∨ s.i.toNat + x.val < a → t.mem.read a = s.mem.read a) ∧
      t = { s with mem := t.mem, pc := s.pc + 2 }) ∧
    (0xFFF < s.i.toNat + x.val → exec (.opFx55 x) s = .fault (.outOfBounds (max s.i.toNat 0x1000) s.pc))

/-- R106: Fx65; I advances by x + 1. -/
def Obligations.LoadRegistersAndAdvance : Prop :=
  DecodesAs 0xF065 0xF0FF (fun w => .opFx65 (fieldX w)) ∧
  ∀ (s : State) (x : Reg),
    (s.i.toNat + x.val ≤ 0xFFF → ∃ t, exec (.opFx65 x) s = .next t ∧
      (∀ r : Reg, r ≤ x → t.reg r = s.mem.read (s.i.toNat + r.val)) ∧
      (∀ r : Reg, x < r → t.reg r = s.reg r) ∧
      t.i.toNat = (s.i.toNat + x.val + 1) % 65536 ∧
      t = { s with v := t.v, i := t.i, pc := s.pc + 2 }) ∧
    (0xFFF < s.i.toNat + x.val → exec (.opFx65 x) s = .fault (.outOfBounds (max s.i.toNat 0x1000) s.pc))

/-- R107: Fk55 then Fk65 gives the registers back, leaves them in memory, and advances I by k + 1. -/
def Obligations.StoreThenLoadRoundTrip : Prop :=
  ∀ (s : State) (k : Reg), s.mem.wf → s.i.toNat + k.val ≤ 0xFFF →
    ∃ t u, exec (.opFx55 k) s = .next t ∧ exec (.opFx65 k) t = .next u ∧ u.v = s.v ∧
      (∀ r : Reg, r ≤ k → u.mem.read (s.i.toNat + r.val) = s.reg r) ∧
      u.i.toNat = s.i.toNat + k.val + 1

/-! ### Keys and timers -/

/-- R108 to R110: Ex9E and ExA1. The fault for a key number above 15 is the spec's decision D10 (log 12). -/
def Obligations.SkipOnKey : Prop :=
  DecodesAs 0xE09E 0xF0FF (fun w => .opEx9E (fieldX w)) ∧
  DecodesAs 0xE0A1 0xF0FF (fun w => .opExA1 (fieldX w)) ∧
  ∀ (s : State) (x : Reg),
    (∀ k : Fin 16, (s.reg x).toNat = k.val →
      exec (.opEx9E x) s = .next { s with pc := if s.key[k.val] then s.pc + 4 else s.pc + 2 } ∧
      exec (.opExA1 x) s = .next { s with pc := if s.key[k.val] then s.pc + 2 else s.pc + 4 }) ∧
    (15 < (s.reg x).toNat →
      exec (.opEx9E x) s = .fault (.outOfBounds (s.reg x).toNat s.pc) ∧
      exec (.opExA1 x) s = .fault (.outOfBounds (s.reg x).toNat s.pc))

/-- R111: Fx0A takes the lowest pressed key (the spec's decision D11, log 13), and with none pressed changes nothing,
PC included. -/
def Obligations.WaitForKey : Prop :=
  DecodesAs 0xF00A 0xF0FF (fun w => .opFx0A (fieldX w)) ∧
  ∀ (s : State) (x : Reg),
    ((∀ k : Fin 16, s.key[k.val] = false) → exec (.opFx0A x) s = .next s) ∧
    (∀ k : Fin 16, s.key[k.val] = true → (∀ j : Fin 16, j < k → s.key[j.val] = false) →
      ∃ t, exec (.opFx0A x) s = .next t ∧ (t.reg x).toNat = k.val ∧
        t = { s with v := s.v.set x.val (t.reg x), pc := s.pc + 2 })

/-- R111: while no key is pressed a step at an Fx0A changes nothing but the timers and the audio
output (the spec's decision D11, log 13; the field `audio` is the model's, log 5). -/
def Obligations.KeyWaitOnlyTicksTimers : Prop :=
  ∀ (s : State) (w : Word) (x : Reg), fetchWord s = .ok w → decodeWord s.params w = some (.opFx0A x) →
    (∀ k : Fin 16, s.key[k.val] = false) →
    ∃ t, step s = .next t ∧ t.dt.toNat = s.dt.toNat - 1 ∧ t.st.toNat = s.st.toNat - 1 ∧
      t = { s with dt := t.dt, st := t.st, audio := t.audio }

/-- R112, R113: Fx07 and Fx15, as the execute phase and as a whole step with its tick. -/
def Obligations.DelayTimerInstructions : Prop :=
  DecodesAs 0xF007 0xF0FF (fun w => .opFx07 (fieldX w)) ∧
  DecodesAs 0xF015 0xF0FF (fun w => .opFx15 (fieldX w)) ∧
  ∀ (s : State) (x : Reg),
    exec (.opFx07 x) s = .next { s with v := s.v.set x.val s.dt, pc := s.pc + 2 } ∧
    exec (.opFx15 x) s = .next { s with dt := s.reg x, pc := s.pc + 2 } ∧
    ∀ w, fetchWord s = .ok w →
      (decodeWord s.params w = some (.opFx07 x) →
        ∃ t, step s = .next t ∧ t.reg x = s.dt ∧ t.dt.toNat = s.dt.toNat - 1) ∧
      (decodeWord s.params w = some (.opFx15 x) →
        ∃ t, step s = .next t ∧ t.dt.toNat = (s.reg x).toNat - 1)

/-- R114: Fx18 stores V[x] in ST (the spec's decision D15, log 15), before the tick. -/
def Obligations.SetSoundTimer : Prop :=
  DecodesAs 0xF018 0xF0FF (fun w => .opFx18 (fieldX w)) ∧
  ∀ (s : State) (x : Reg), exec (.opFx18 x) s = .next { s with st := s.reg x, pc := s.pc + 2 }

/-! ### Construction and the host -/

/-- R32, R36, R136: the state after construction with any parameters and any font. The zero of I is the spec's reading
of the source and the cleared REDRAW its decision D19 (log 6); parameters held in State are the model's choice (log
1). -/
def Obligations.ConstructedState : Prop :=
  ∀ (p : Params) (font : Vector Byte 80),
    (∀ a, (State.construct p font).mem.read a = if h : 0x050 ≤ a ∧ a ≤ 0x09F then font[a - 0x050]'(by omega) else 0) ∧
    (∀ r, (State.construct p font).reg r = 0) ∧ (State.construct p font).i = 0 ∧
    (State.construct p font).pc = 0x200 ∧ (State.construct p font).sp.val = 0 ∧
    (∀ k : Fin 16, (State.construct p font).stack[k.val] = 0) ∧
    (State.construct p font).dt = 0 ∧ (State.construct p font).st = 0 ∧
    (∀ k : Fin 16, (State.construct p font).key[k.val] = false) ∧
    (∀ (r : Fin 32) (c : Fin 64), (State.construct p font).fb[r.val][c.val] = false) ∧
    (State.construct p font).redraw = false ∧ (State.construct p font).params = p

/-- R121, R137: load copies the image to 0x200 and on, changing nothing else, or fails and leaves the engine and the
phase as they were, so that the host may load again; as an operation on State and as the host's action before the
first step. The unchanged state and the repeated load are the spec's decision D20 (log 19); the PC in the record of
ProgramTooLarge is the model's choice (log 18). Reading the image back takes a canonical memory, an invariant. -/
def Obligations.LoadCopiesTheImage : Prop :=
  ∀ (s : State) (bytes : List Byte),
    (0x1000 < 0x200 + bytes.length →
      s.load bytes = .error (.programTooLarge s.pc) ∧
      Session.act ⟨s, .loading⟩ (.load bytes) = some (.failed (.programTooLarge s.pc), ⟨s, .loading⟩)) ∧
    (0x200 + bytes.length ≤ 0x1000 → ∃ t, s.load bytes = .ok t ∧
      Session.act ⟨s, .loading⟩ (.load bytes) = some (.ok, ⟨t, .loading⟩) ∧
      (s.mem.wf → ∀ k (h : k < bytes.length), t.mem.read (0x200 + k) = bytes[k]) ∧
      (∀ a, a < 0x200 ∨ 0x200 + bytes.length ≤ a → t.mem.read a = s.mem.read a) ∧
      t = { s with mem := t.mem })

/-- R128 to R132: what each host action other than load and step returns and changes. That `take_redraw_flag` answers
the flag's old value and that the host may set any vector are the spec's decisions D19 and D24 (log 6, 20). The
statement holds of a run that is over too: that the views stay readable there is the spec's decision D27, that
set_keys and the redraw calls do is the model's choice (log 27). -/
def Obligations.HostViewsAndLatches : Prop :=
  ∀ (c : Session) (keys : Vector Bool 16),
    c.act (.setKeys keys) = some (.nothing, { c with engine := { c.engine with key := keys } }) ∧
    c.act .needsRedraw = some (.flag c.engine.redraw, c) ∧
    c.act .takeRedrawFlag = some (.flag c.engine.redraw, { c with engine := { c.engine with redraw := false } }) ∧
    c.act .registers = some (.bytes c.engine.v.toList, c) ∧
    c.act .programCounter = some (.word c.engine.pc, c) ∧
    c.act .indexRegister = some (.word c.engine.i, c) ∧
    ∃ view : List Byte, c.act .framebuffer = some (.bytes view, c) ∧ view.length = 2048 ∧
      ∀ (r : Fin 32) (q : Fin 64), view[r.val * 64 + q.val]? = some (if c.engine.fb[r.val][q.val] then 1 else 0)

/-- R122, R132, R137: a step that faults leaves the engine as it was and ends the run, after which there is no step;
and once a step has been taken there is no load (the spec's decisions D9 and D20, log 18, 19). -/
def Obligations.AFaultEndsTheRun : Prop :=
  (∀ (c : Session) (f : Fault), (∀ g, c.phase ≠ .over g) → step c.engine = .fault f →
    c.act .step = some (.failed f, ⟨c.engine, .over f⟩)) ∧
  (∀ (c : Session) (f : Fault), c.phase = .over f → c.act .step = none ∧ ∀ bytes, c.act (.load bytes) = none) ∧
  (∀ (c d : Session) (r : Reply) (bytes : List Byte), c.act .step = some (r, d) → d.act (.load bytes) = none)

/-- R144, R145: at a designated stop the engine keeps stepping: every step succeeds and only the timers and the audio
output change. What a designated stop is, is the spec's decision D29 (log 26). -/
def Obligations.DesignatedStopLoops : Prop :=
  ∀ (s : State), s.atDesignatedStop = true → ∃ t, step s = .next t ∧
    t = { s with dt := t.dt, st := t.st, audio := t.audio } ∧ t.atDesignatedStop = true

/-- R145: how a run of one step per key vector ends. A designated stop is R145's condition on PC and the two bytes
there; a run at a stop is reported as stopped at once, and any other run goes on through the step taken with the new
keys. So it is reported as stopped at u exactly when u is the FIRST designated stop it reaches, as faulted exactly
when a step faults before any stop, with the state that step left, and as unfinished exactly when every step succeeds
and no state is a stop. The engine itself goes on from a reported stop, with any keys, to a stop at the same PC
(R144). What ends a run is the spec's decision D29 (log 26). -/
def Obligations.RunEndsWhereItSays : Prop :=
  ∀ (keys : List (Vector Bool 16)) (s : State),
    (s.atDesignatedStop = true ↔ s.pc.toNat ≤ 0xFFE ∧
      (s.mem.read s.pc.toNat).toNat * 256 + (s.mem.read (s.pc.toNat + 1)).toNat = 0x1000 ||| s.pc.toNat) ∧
    (s.atDesignatedStop = true → runToStop keys s = .stopped s) ∧
    (s.atDesignatedStop = false → ∀ k,
      (∀ t, step (s.setKeys k) = .next t → runToStop (k :: keys) s = runToStop keys t) ∧
      (∀ f, step (s.setKeys k) = .fault f → runToStop (k :: keys) s = .faulted f (s.setKeys k))) ∧
    (∀ u, runToStop keys s = .stopped u ↔ ∃ n, n ≤ keys.length ∧
      stateAfter (keys.take n) s = some u ∧ u.atDesignatedStop = true ∧
      ∀ m v, m < n → stateAfter (keys.take m) s = some v → v.atDesignatedStop = false) ∧
    (∀ f u, runToStop keys s = .faulted f u ↔ ∃ (n : Nat) (h : n < keys.length) (v : State),
      stateAfter (keys.take n) s = some v ∧ u = v.setKeys keys[n] ∧ step u = .fault f ∧
      ∀ m v, m ≤ n → stateAfter (keys.take m) s = some v → v.atDesignatedStop = false) ∧
    (∀ u, runToStop keys s = .unfinished u ↔ stateAfter keys s = some u ∧
      ∀ m v, m ≤ keys.length → stateAfter (keys.take m) s = some v → v.atDesignatedStop = false) ∧
    (∀ u, runToStop keys s = .stopped u →
      ∀ k, ∃ t, step (u.setKeys k) = .next t ∧ t.atDesignatedStop = true ∧ t.pc = u.pc)
end

