-- ==== Sys2Proof/Laws/Decode.lean ====
section
/-! SUPPORT. Words as numbers: the masks of the opcode map, the fields, and the words the encoder makes. -/

namespace Sys2Proof

/-- ANDing with a mask of the top nibble and the low `k` bits keeps exactly those two parts of the word. -/
theorem mask_toNat (w m : Word) (k : Nat) (hk : k ≤ 12) (hm : m.toNat = 2 ^ 12 * 15 + (2 ^ k - 1)) :
    (w &&& m).toNat = 2 ^ 12 * (w.toNat / 2 ^ 12) + w.toNat % 2 ^ k := by
  have hk2 : 2 ^ k ≤ 2 ^ 12 := Nat.pow_le_pow_right (by decide) hk
  have h1 : w.toNat % 2 ^ k < 2 ^ 12 := Nat.lt_of_lt_of_le (Nat.mod_lt _ (by positivity)) hk2
  have h2 : 2 ^ k - 1 < 2 ^ 12 := by omega
  rw [BitVec.toNat_and, hm, Nat.two_pow_add_eq_or_of_lt h1, Nat.two_pow_add_eq_or_of_lt h2]
  apply Nat.eq_of_testBit_eq
  intro i
  simp only [Nat.testBit_and, Nat.testBit_or, Nat.testBit_two_pow_mul, Nat.testBit_div_two_pow,
    Nat.testBit_mod_two_pow, Nat.testBit_two_pow_sub_one]
  have h15 : (15 : Nat) = 2 ^ 4 - 1 := rfl
  rw [h15, Nat.testBit_two_pow_sub_one]
  by_cases h : i < 16
  · by_cases h' : 12 ≤ i
    · have : i - 12 < 4 := by omega
      have : ¬i < k := by omega
      simp [*]
    · simp [*]
      exact Bool.and_comm _ _
  · have hw : w.toNat.testBit i = false :=
      Nat.testBit_lt_two_pow (Nat.lt_of_lt_of_le w.isLt (Nat.pow_le_pow_right (by decide) (by omega)))
    have hi : i - 12 + 12 = i := by omega
    simp [hw, hi]

/-- Membership of a whole-family row: the family nibble. -/
theorem mask_F000 (w q : Word) : w &&& 0xF000 = q ↔ 4096 * (w.toNat / 4096) = q.toNat := by
  rw [← BitVec.toNat_inj, mask_toNat w 0xF000 0 (by decide) rfl]
  simp [Nat.mod_one]

/-- Membership of a row with a low-nibble function code. -/
theorem mask_F00F (w q : Word) : w &&& 0xF00F = q ↔ 4096 * (w.toNat / 4096) + w.toNat % 16 = q.toNat := by
  rw [← BitVec.toNat_inj, mask_toNat w 0xF00F 4 (by decide) rfl]
  rfl

/-- Membership of a row with a low-byte function code. -/
theorem mask_F0FF (w q : Word) : w &&& 0xF0FF = q ↔ 4096 * (w.toNat / 4096) + w.toNat % 256 = q.toNat := by
  rw [← BitVec.toNat_inj, mask_toNat w 0xF0FF 8 (by decide) rfl]
  rfl

/-- Membership of a fixed word's row. -/
theorem mask_FFFF (w q : Word) : w &&& 0xFFFF = q ↔ w = q := by
  rw [show (0xFFFF : Word) = BitVec.allOnes 16 from rfl, BitVec.and_allOnes]

theorem fieldF_eq (w : Word) : fieldF w = w.toNat / 4096 := by
  have := w.isLt
  simp only [fieldF, bitField]
  omega

theorem fieldF_lt (w : Word) : fieldF w < 16 := by
  have := w.isLt
  rw [fieldF_eq]
  omega

theorem fieldX_val (w : Word) : (fieldX w).val = w.toNat / 256 % 16 := by
  simp [fieldX, bitField, Fin.ofNat]

theorem fieldY_val (w : Word) : (fieldY w).val = w.toNat / 16 % 16 := by
  simp [fieldY, bitField, Fin.ofNat]

theorem fieldN_val (w : Word) : (fieldN w).val = w.toNat % 16 := by
  simp [fieldN, bitField, Fin.ofNat]

theorem fieldNN_toNat (w : Word) : (fieldNN w).toNat = w.toNat % 256 := by
  simp [fieldNN, bitField]

theorem fieldNNN_toNat (w : Word) : (fieldNNN w).toNat = w.toNat % 4096 := by
  simp [fieldNNN, bitField]

theorem encNNN_toNat {f : Nat} (hf : f < 16) (nnn : BitVec 12) : (encNNN f nnn).toNat = f * 4096 + nnn.toNat := by
  have := nnn.isLt
  simp only [encNNN, BitVec.toNat_ofNat]
  omega

theorem encXNN_toNat {f nn : Nat} (hf : f < 16) (hn : nn < 256) (x : Reg) :
    (encXNN f x nn).toNat = f * 4096 + x.val * 256 + nn := by
  have := x.isLt
  simp only [encXNN, BitVec.toNat_ofNat]
  omega

theorem encXYN_toNat {f n : Nat} (hf : f < 16) (hn : n < 16) (x y : Reg) :
    (encXYN f x y n).toNat = f * 4096 + x.val * 256 + y.val * 16 + n := by
  have := x.isLt
  have := y.isLt
  simp only [encXYN, BitVec.toNat_ofNat]
  omega

/-- The bytes of a word read back as the word. -/
theorem bigEndian_wordBytes (w : Word) :
    bigEndian (BitVec.ofNat 8 (w.toNat / 256)) (BitVec.ofNat 8 w.toNat) = w := by
  have := w.isLt
  apply BitVec.eq_of_toNat_eq
  simp only [bigEndian, BitVec.toNat_ofNat]
  omega

/-! ### A word the encoder makes, and its row -/

theorem covers_encNNN {f : Nat} (hf : f < 16) (q : Word) (hq : q.toNat = 4096 * f) (nnn : BitVec 12) :
    OpcodeRow.covers ⟨q, 0xF000⟩ (encNNN f nnn) = true := by
  have := nnn.isLt
  simp only [OpcodeRow.covers, beq_iff_eq, mask_F000, encNNN_toNat hf]
  omega

theorem covers_encXNN {f nn : Nat} (hf : f < 16) (hn : nn < 256) (q : Word) (hq : q.toNat = 4096 * f) (x : Reg) :
    OpcodeRow.covers ⟨q, 0xF000⟩ (encXNN f x nn) = true := by
  have := x.isLt
  simp only [OpcodeRow.covers, beq_iff_eq, mask_F000, encXNN_toNat hf hn]
  omega

theorem covers_encXK {f nn : Nat} (hf : f < 16) (hn : nn < 256) (q : Word) (hq : q.toNat = 4096 * f + nn) (x : Reg) :
    OpcodeRow.covers ⟨q, 0xF0FF⟩ (encXNN f x nn) = true := by
  have := x.isLt
  simp only [OpcodeRow.covers, beq_iff_eq, mask_F0FF, encXNN_toNat hf hn]
  omega

theorem covers_encXY {f n : Nat} (hf : f < 16) (hn : n < 16) (q : Word) (hq : q.toNat = 4096 * f + n) (x y : Reg) :
    OpcodeRow.covers ⟨q, 0xF00F⟩ (encXYN f x y n) = true := by
  have := x.isLt
  have := y.isLt
  simp only [OpcodeRow.covers, beq_iff_eq, mask_F00F, encXYN_toNat hf hn]
  omega

theorem covers_encXYN {f n : Nat} (hf : f < 16) (hn : n < 16) (q : Word) (hq : q.toNat = 4096 * f) (x y : Reg) :
    OpcodeRow.covers ⟨q, 0xF000⟩ (encXYN f x y n) = true := by
  have := x.isLt
  have := y.isLt
  simp only [OpcodeRow.covers, beq_iff_eq, mask_F000, encXYN_toNat hf hn]
  omega

end Sys2Proof
end

