-- ==== Sys2Proof/Laws/Memory.lean ====
section
/-! SUPPORT. Memory: a read after a write, and that every memory operation keeps the canonical form. -/

namespace Sys2Proof.Machine

/-- Construction leaves 0 outside the font table (R36). -/
theorem resetByte_outside_font {a : Nat} (h : a < 0x50 ∨ 0x9F < a) : resetByte a = 0 := by
  unfold resetByte
  split
  · rw [Vector.getElem?_eq_none (by simp only [fontBase] at *; omega)]
    rfl
  · rfl

theorem Memory.read_entry (a b' : Nat) (b : Byte) (rest : Memory) :
    (Memory.entry a b rest).read b' =
      if b = resetByte a then rest.read b' else if a = b' then b else rest.read b' := by
  unfold Memory.entry
  split <;> simp [Memory.read]

/-- A write leaves every other address alone, in any memory. -/
theorem Memory.read_write_other (m : Memory) {a a' : Nat} (b : Byte) (h : a' ≠ a) :
    (m.write a b).read a' = m.read a' := by
  induction m with
  | nil => simp [Memory.write, Memory.read_entry, Memory.read, Ne.symm h]
  | cons c rest ih =>
    obtain ⟨k, d⟩ := c
    simp only [Memory.write]
    split
    · simp [Memory.read_entry, Ne.symm h]
    · split
      · subst_vars
        simp [Memory.read_entry, Memory.read, Ne.symm h]
      · simp [Memory.read, ih]

/-- Below the first listed address, an address reads as construction left it. -/
theorem Memory.read_of_lt_all (m : Memory) (a : Nat) (h : ∀ c ∈ m, a < c.1) : m.read a = resetByte a := by
  induction m with
  | nil => rfl
  | cons c rest ih =>
    obtain ⟨k, d⟩ := c
    have hk : a < k := h (k, d) (by simp)
    simp only [Memory.read]
    rw [if_neg (by omega)]
    exact ih fun c hc => h c (by simp [hc])

/-- A write is read back, in a memory whose addresses rise. -/
theorem Memory.read_write_same (m : Memory) (a : Nat) (b : Byte) (h : m.Pairwise fun c d => c.1 < d.1) :
    (m.write a b).read a = b := by
  induction m with
  | nil =>
    simp only [Memory.write, Memory.read_entry]
    split <;> simp_all [Memory.read]
  | cons c rest ih =>
    obtain ⟨k, d⟩ := c
    obtain ⟨hlt, hrest⟩ := List.pairwise_cons.mp h
    simp only [Memory.write]
    split
    · rename_i hak
      rw [Memory.read_entry]
      split
      · rename_i hb
        rw [hb]
        refine Memory.read_of_lt_all _ _ fun c hc => ?_
        rcases List.mem_cons.mp hc with rfl | hc
        · exact hak
        · exact Nat.lt_trans hak (hlt c hc)
      · simp
    · split
      · rename_i hak
        subst hak
        rw [Memory.read_entry]
        split
        · rename_i hb
          rw [hb]
          exact Memory.read_of_lt_all _ _ hlt
        · simp
      · rename_i hne
        simp only [Memory.read]
        rw [if_neg (fun e => hne e.symm)]
        exact ih hrest

theorem Memory.read_write (m : Memory) (a a' : Nat) (b : Byte) (h : m.wf) :
    (m.write a b).read a' = if a' = a then b else m.read a' := by
  split
  · subst_vars; exact Memory.read_write_same m _ b h.1
  · exact Memory.read_write_other m b ‹_›

/-- Every listed address of a written memory was listed or is the one written. -/
theorem Memory.mem_write {m : Memory} {a : Nat} {b : Byte} {c : Host.Cell} (h : c ∈ m.write a b) :
    c ∈ m ∨ (c = (a, b) ∧ b ≠ resetByte a) := by
  induction m with
  | nil =>
    simp only [Memory.write, Memory.entry] at h
    split at h <;> simp_all
  | cons d rest ih =>
    obtain ⟨k, e⟩ := d
    simp only [Memory.write, Memory.entry] at h
    split at h
    · split at h <;> simp_all; tauto
    · split at h
      · split at h <;> simp_all; tauto
      · rcases List.mem_cons.mp h with rfl | h
        · simp
        · rcases ih h with h | h
          · simp [h]
          · exact Or.inr h

theorem Memory.write_rising (m : Memory) (a : Nat) (b : Byte) (h : m.Pairwise fun c d => c.1 < d.1) :
    (m.write a b).Pairwise fun c d => c.1 < d.1 := by
  induction m with
  | nil =>
    simp only [Memory.write, Memory.entry]
    split <;> simp
  | cons c rest ih =>
    obtain ⟨k, d⟩ := c
    obtain ⟨hlt, hrest⟩ := List.pairwise_cons.mp h
    simp only [Memory.write, Memory.entry]
    split
    · rename_i hak
      split
      · exact h
      · refine List.pairwise_cons.mpr ⟨fun c hc => ?_, h⟩
        rcases List.mem_cons.mp hc with rfl | hc
        · exact hak
        · exact Nat.lt_trans hak (hlt c hc)
    · split
      · rename_i hak
        subst hak
        split
        · exact hrest
        · exact List.pairwise_cons.mpr ⟨hlt, hrest⟩
      · rename_i h1 h2
        refine List.pairwise_cons.mpr ⟨fun c hc => ?_, ih hrest⟩
        rcases Memory.mem_write hc with hc | ⟨rfl, -⟩
        · exact hlt c hc
        · show k < a
          omega

/-- A write inside MEM keeps the canonical form. -/
theorem Memory.write_wf {m : Memory} (h : m.wf) {a : Nat} (ha : a < memSize) (b : Byte) : (m.write a b).wf := by
  refine ⟨Memory.write_rising m a b h.1, fun c hc => ?_⟩
  rcases Memory.mem_write hc with hc | ⟨rfl, hb⟩
  · exact h.2 c hc
  · exact ⟨ha, hb⟩

/-- Storing bytes inside MEM keeps the canonical form. -/
theorem Memory.store_wf (bytes : List Byte) {m : Memory} (h : m.wf) {a : Nat} (ha : a + bytes.length ≤ memSize) :
    (m.store a bytes).wf := by
  induction bytes generalizing m a with
  | nil => exact h
  | cons b rest ih =>
    simp only [List.length_cons] at ha
    exact ih (Memory.write_wf h (by omega) b) (by omega)

/-- A store leaves every address outside its bytes alone, in any memory. -/
theorem Memory.read_store_outside (bytes : List Byte) (m : Memory) {a a' : Nat}
    (h : a' < a ∨ a + bytes.length ≤ a') : (m.store a bytes).read a' = m.read a' := by
  induction bytes generalizing m a with
  | nil => rfl
  | cons b rest ih =>
    simp only [List.length_cons] at h
    simp only [Memory.store]
    rw [ih (m.write a b) (by omega), Memory.read_write_other m b (by omega)]

/-- Each stored byte is read back. -/
theorem Memory.read_store_inside (bytes : List Byte) {m : Memory} (h : m.wf) {a : Nat}
    (ha : a + bytes.length ≤ memSize) (k : Nat) (hk : k < bytes.length) :
    (m.store a bytes).read (a + k) = bytes[k] := by
  induction bytes generalizing m a k with
  | nil => simp at hk
  | cons b rest ih =>
    simp only [List.length_cons] at ha hk
    simp only [Memory.store]
    cases k with
    | zero =>
      rw [Memory.read_store_outside rest _ (by omega)]
      simpa using Memory.read_write_same m a b h.1
    | succ k =>
      have := ih (Memory.write_wf h (a := a) (by omega) b) (a := a + 1) (by omega) k (by omega)
      rw [show a + (k + 1) = a + 1 + k by omega, this]
      simp

end Sys2Proof.Machine
end

