-- ==== Sys2Proof/Laws/State.lean ====
section
/-! SUPPORT. One lemma per field per update of State, so that later proofs do not unfold an update. -/

namespace Sys2Proof.Machine

variable (s : State)

/-! `State.setReg` -/

@[simp] theorem State.setReg_mem (r : Reg) (b : Byte) : (s.setReg r b).mem = s.mem := rfl
@[simp] theorem State.setReg_v (r : Reg) (b : Byte) : (s.setReg r b).v = s.v.set r.val b := rfl
@[simp] theorem State.setReg_i (r : Reg) (b : Byte) : (s.setReg r b).i = s.i := rfl
@[simp] theorem State.setReg_pc (r : Reg) (b : Byte) : (s.setReg r b).pc = s.pc := rfl
@[simp] theorem State.setReg_sp (r : Reg) (b : Byte) : (s.setReg r b).sp = s.sp := rfl
@[simp] theorem State.setReg_stack (r : Reg) (b : Byte) : (s.setReg r b).stack = s.stack := rfl
@[simp] theorem State.setReg_dt (r : Reg) (b : Byte) : (s.setReg r b).dt = s.dt := rfl
@[simp] theorem State.setReg_st (r : Reg) (b : Byte) : (s.setReg r b).st = s.st := rfl
@[simp] theorem State.setReg_key (r : Reg) (b : Byte) : (s.setReg r b).key = s.key := rfl
@[simp] theorem State.setReg_fb (r : Reg) (b : Byte) : (s.setReg r b).fb = s.fb := rfl
@[simp] theorem State.setReg_redraw (r : Reg) (b : Byte) : (s.setReg r b).redraw = s.redraw := rfl
@[simp] theorem State.setReg_params (r : Reg) (b : Byte) : (s.setReg r b).params = s.params := rfl
@[simp] theorem State.setReg_draws (r : Reg) (b : Byte) : (s.setReg r b).draws = s.draws := rfl
@[simp] theorem State.setReg_audio (r : Reg) (b : Byte) : (s.setReg r b).audio = s.audio := rfl

/-! `State.setI` -/

@[simp] theorem State.setI_mem (a : Word) : (s.setI a).mem = s.mem := rfl
@[simp] theorem State.setI_v (a : Word) : (s.setI a).v = s.v := rfl
@[simp] theorem State.setI_i (a : Word) : (s.setI a).i = a := rfl
@[simp] theorem State.setI_pc (a : Word) : (s.setI a).pc = s.pc := rfl
@[simp] theorem State.setI_sp (a : Word) : (s.setI a).sp = s.sp := rfl
@[simp] theorem State.setI_stack (a : Word) : (s.setI a).stack = s.stack := rfl
@[simp] theorem State.setI_dt (a : Word) : (s.setI a).dt = s.dt := rfl
@[simp] theorem State.setI_st (a : Word) : (s.setI a).st = s.st := rfl
@[simp] theorem State.setI_key (a : Word) : (s.setI a).key = s.key := rfl
@[simp] theorem State.setI_fb (a : Word) : (s.setI a).fb = s.fb := rfl
@[simp] theorem State.setI_redraw (a : Word) : (s.setI a).redraw = s.redraw := rfl
@[simp] theorem State.setI_params (a : Word) : (s.setI a).params = s.params := rfl
@[simp] theorem State.setI_draws (a : Word) : (s.setI a).draws = s.draws := rfl
@[simp] theorem State.setI_audio (a : Word) : (s.setI a).audio = s.audio := rfl

/-! `State.setPC` -/

@[simp] theorem State.setPC_mem (a : Word) : (s.setPC a).mem = s.mem := rfl
@[simp] theorem State.setPC_v (a : Word) : (s.setPC a).v = s.v := rfl
@[simp] theorem State.setPC_i (a : Word) : (s.setPC a).i = s.i := rfl
@[simp] theorem State.setPC_pc (a : Word) : (s.setPC a).pc = a := rfl
@[simp] theorem State.setPC_sp (a : Word) : (s.setPC a).sp = s.sp := rfl
@[simp] theorem State.setPC_stack (a : Word) : (s.setPC a).stack = s.stack := rfl
@[simp] theorem State.setPC_dt (a : Word) : (s.setPC a).dt = s.dt := rfl
@[simp] theorem State.setPC_st (a : Word) : (s.setPC a).st = s.st := rfl
@[simp] theorem State.setPC_key (a : Word) : (s.setPC a).key = s.key := rfl
@[simp] theorem State.setPC_fb (a : Word) : (s.setPC a).fb = s.fb := rfl
@[simp] theorem State.setPC_redraw (a : Word) : (s.setPC a).redraw = s.redraw := rfl
@[simp] theorem State.setPC_params (a : Word) : (s.setPC a).params = s.params := rfl
@[simp] theorem State.setPC_draws (a : Word) : (s.setPC a).draws = s.draws := rfl
@[simp] theorem State.setPC_audio (a : Word) : (s.setPC a).audio = s.audio := rfl

/-! `State.advance` -/

@[simp] theorem State.advance_mem : s.advance.mem = s.mem := rfl
@[simp] theorem State.advance_v : s.advance.v = s.v := rfl
@[simp] theorem State.advance_i : s.advance.i = s.i := rfl
@[simp] theorem State.advance_pc : s.advance.pc = s.pc + 2 := rfl
@[simp] theorem State.advance_sp : s.advance.sp = s.sp := rfl
@[simp] theorem State.advance_stack : s.advance.stack = s.stack := rfl
@[simp] theorem State.advance_dt : s.advance.dt = s.dt := rfl
@[simp] theorem State.advance_st : s.advance.st = s.st := rfl
@[simp] theorem State.advance_key : s.advance.key = s.key := rfl
@[simp] theorem State.advance_fb : s.advance.fb = s.fb := rfl
@[simp] theorem State.advance_redraw : s.advance.redraw = s.redraw := rfl
@[simp] theorem State.advance_params : s.advance.params = s.params := rfl
@[simp] theorem State.advance_draws : s.advance.draws = s.draws := rfl
@[simp] theorem State.advance_audio : s.advance.audio = s.audio := rfl

/-! `State.setDT` -/

@[simp] theorem State.setDT_mem (b : Byte) : (s.setDT b).mem = s.mem := rfl
@[simp] theorem State.setDT_v (b : Byte) : (s.setDT b).v = s.v := rfl
@[simp] theorem State.setDT_i (b : Byte) : (s.setDT b).i = s.i := rfl
@[simp] theorem State.setDT_pc (b : Byte) : (s.setDT b).pc = s.pc := rfl
@[simp] theorem State.setDT_sp (b : Byte) : (s.setDT b).sp = s.sp := rfl
@[simp] theorem State.setDT_stack (b : Byte) : (s.setDT b).stack = s.stack := rfl
@[simp] theorem State.setDT_dt (b : Byte) : (s.setDT b).dt = b := rfl
@[simp] theorem State.setDT_st (b : Byte) : (s.setDT b).st = s.st := rfl
@[simp] theorem State.setDT_key (b : Byte) : (s.setDT b).key = s.key := rfl
@[simp] theorem State.setDT_fb (b : Byte) : (s.setDT b).fb = s.fb := rfl
@[simp] theorem State.setDT_redraw (b : Byte) : (s.setDT b).redraw = s.redraw := rfl
@[simp] theorem State.setDT_params (b : Byte) : (s.setDT b).params = s.params := rfl
@[simp] theorem State.setDT_draws (b : Byte) : (s.setDT b).draws = s.draws := rfl
@[simp] theorem State.setDT_audio (b : Byte) : (s.setDT b).audio = s.audio := rfl

/-! `State.setST` -/

@[simp] theorem State.setST_mem (b : Byte) : (s.setST b).mem = s.mem := rfl
@[simp] theorem State.setST_v (b : Byte) : (s.setST b).v = s.v := rfl
@[simp] theorem State.setST_i (b : Byte) : (s.setST b).i = s.i := rfl
@[simp] theorem State.setST_pc (b : Byte) : (s.setST b).pc = s.pc := rfl
@[simp] theorem State.setST_sp (b : Byte) : (s.setST b).sp = s.sp := rfl
@[simp] theorem State.setST_stack (b : Byte) : (s.setST b).stack = s.stack := rfl
@[simp] theorem State.setST_dt (b : Byte) : (s.setST b).dt = s.dt := rfl
@[simp] theorem State.setST_st (b : Byte) : (s.setST b).st = b := rfl
@[simp] theorem State.setST_key (b : Byte) : (s.setST b).key = s.key := rfl
@[simp] theorem State.setST_fb (b : Byte) : (s.setST b).fb = s.fb := rfl
@[simp] theorem State.setST_redraw (b : Byte) : (s.setST b).redraw = s.redraw := rfl
@[simp] theorem State.setST_params (b : Byte) : (s.setST b).params = s.params := rfl
@[simp] theorem State.setST_draws (b : Byte) : (s.setST b).draws = s.draws := rfl
@[simp] theorem State.setST_audio (b : Byte) : (s.setST b).audio = s.audio := rfl

/-! `State.setFB` -/

@[simp] theorem State.setFB_mem (f : Framebuffer) : (s.setFB f).mem = s.mem := rfl
@[simp] theorem State.setFB_v (f : Framebuffer) : (s.setFB f).v = s.v := rfl
@[simp] theorem State.setFB_i (f : Framebuffer) : (s.setFB f).i = s.i := rfl
@[simp] theorem State.setFB_pc (f : Framebuffer) : (s.setFB f).pc = s.pc := rfl
@[simp] theorem State.setFB_sp (f : Framebuffer) : (s.setFB f).sp = s.sp := rfl
@[simp] theorem State.setFB_stack (f : Framebuffer) : (s.setFB f).stack = s.stack := rfl
@[simp] theorem State.setFB_dt (f : Framebuffer) : (s.setFB f).dt = s.dt := rfl
@[simp] theorem State.setFB_st (f : Framebuffer) : (s.setFB f).st = s.st := rfl
@[simp] theorem State.setFB_key (f : Framebuffer) : (s.setFB f).key = s.key := rfl
@[simp] theorem State.setFB_fb (f : Framebuffer) : (s.setFB f).fb = f := rfl
@[simp] theorem State.setFB_redraw (f : Framebuffer) : (s.setFB f).redraw = true := rfl
@[simp] theorem State.setFB_params (f : Framebuffer) : (s.setFB f).params = s.params := rfl
@[simp] theorem State.setFB_draws (f : Framebuffer) : (s.setFB f).draws = s.draws := rfl
@[simp] theorem State.setFB_audio (f : Framebuffer) : (s.setFB f).audio = s.audio := rfl

/-! `State.setKeys` -/

@[simp] theorem State.setKeys_mem (k : Vector Bool 16) : (s.setKeys k).mem = s.mem := rfl
@[simp] theorem State.setKeys_v (k : Vector Bool 16) : (s.setKeys k).v = s.v := rfl
@[simp] theorem State.setKeys_i (k : Vector Bool 16) : (s.setKeys k).i = s.i := rfl
@[simp] theorem State.setKeys_pc (k : Vector Bool 16) : (s.setKeys k).pc = s.pc := rfl
@[simp] theorem State.setKeys_sp (k : Vector Bool 16) : (s.setKeys k).sp = s.sp := rfl
@[simp] theorem State.setKeys_stack (k : Vector Bool 16) : (s.setKeys k).stack = s.stack := rfl
@[simp] theorem State.setKeys_dt (k : Vector Bool 16) : (s.setKeys k).dt = s.dt := rfl
@[simp] theorem State.setKeys_st (k : Vector Bool 16) : (s.setKeys k).st = s.st := rfl
@[simp] theorem State.setKeys_key (k : Vector Bool 16) : (s.setKeys k).key = k := rfl
@[simp] theorem State.setKeys_fb (k : Vector Bool 16) : (s.setKeys k).fb = s.fb := rfl
@[simp] theorem State.setKeys_redraw (k : Vector Bool 16) : (s.setKeys k).redraw = s.redraw := rfl
@[simp] theorem State.setKeys_params (k : Vector Bool 16) : (s.setKeys k).params = s.params := rfl
@[simp] theorem State.setKeys_draws (k : Vector Bool 16) : (s.setKeys k).draws = s.draws := rfl
@[simp] theorem State.setKeys_audio (k : Vector Bool 16) : (s.setKeys k).audio = s.audio := rfl

/-! `State.skipIf` and `State.writeAlu`: PC and V are said by lemmas of their own below. -/

@[simp] theorem State.skipIf_mem (c : Bool) : (s.skipIf c).mem = s.mem := by cases c <;> rfl
@[simp] theorem State.skipIf_v (c : Bool) : (s.skipIf c).v = s.v := by cases c <;> rfl
@[simp] theorem State.skipIf_i (c : Bool) : (s.skipIf c).i = s.i := by cases c <;> rfl
@[simp] theorem State.skipIf_sp (c : Bool) : (s.skipIf c).sp = s.sp := by cases c <;> rfl
@[simp] theorem State.skipIf_stack (c : Bool) : (s.skipIf c).stack = s.stack := by cases c <;> rfl
@[simp] theorem State.skipIf_dt (c : Bool) : (s.skipIf c).dt = s.dt := by cases c <;> rfl
@[simp] theorem State.skipIf_st (c : Bool) : (s.skipIf c).st = s.st := by cases c <;> rfl
@[simp] theorem State.skipIf_key (c : Bool) : (s.skipIf c).key = s.key := by cases c <;> rfl
@[simp] theorem State.skipIf_fb (c : Bool) : (s.skipIf c).fb = s.fb := by cases c <;> rfl
@[simp] theorem State.skipIf_redraw (c : Bool) : (s.skipIf c).redraw = s.redraw := by cases c <;> rfl
@[simp] theorem State.skipIf_params (c : Bool) : (s.skipIf c).params = s.params := by cases c <;> rfl
@[simp] theorem State.skipIf_draws (c : Bool) : (s.skipIf c).draws = s.draws := by cases c <;> rfl
@[simp] theorem State.skipIf_audio (c : Bool) : (s.skipIf c).audio = s.audio := by cases c <;> rfl

@[simp] theorem State.skipIf_pc (c : Bool) : (s.skipIf c).pc = if c then s.pc + 4 else s.pc + 2 := by cases c <;> rfl

@[simp] theorem State.writeAlu_mem (op : Byte → Byte → AluOut) (x y : Reg) : (s.writeAlu op x y).mem = s.mem := by
  unfold State.writeAlu; split <;> rfl
@[simp] theorem State.writeAlu_i (op : Byte → Byte → AluOut) (x y : Reg) : (s.writeAlu op x y).i = s.i := by
  unfold State.writeAlu; split <;> rfl
@[simp] theorem State.writeAlu_pc (op : Byte → Byte → AluOut) (x y : Reg) : (s.writeAlu op x y).pc = s.pc := by
  unfold State.writeAlu; split <;> rfl
@[simp] theorem State.writeAlu_sp (op : Byte → Byte → AluOut) (x y : Reg) : (s.writeAlu op x y).sp = s.sp := by
  unfold State.writeAlu; split <;> rfl
@[simp] theorem State.writeAlu_stack (op : Byte → Byte → AluOut) (x y : Reg) : (s.writeAlu op x y).stack = s.stack := by
  unfold State.writeAlu; split <;> rfl
@[simp] theorem State.writeAlu_dt (op : Byte → Byte → AluOut) (x y : Reg) : (s.writeAlu op x y).dt = s.dt := by
  unfold State.writeAlu; split <;> rfl
@[simp] theorem State.writeAlu_st (op : Byte → Byte → AluOut) (x y : Reg) : (s.writeAlu op x y).st = s.st := by
  unfold State.writeAlu; split <;> rfl
@[simp] theorem State.writeAlu_key (op : Byte → Byte → AluOut) (x y : Reg) : (s.writeAlu op x y).key = s.key := by
  unfold State.writeAlu; split <;> rfl
@[simp] theorem State.writeAlu_fb (op : Byte → Byte → AluOut) (x y : Reg) : (s.writeAlu op x y).fb = s.fb := by
  unfold State.writeAlu; split <;> rfl
@[simp] theorem State.writeAlu_redraw (op : Byte → Byte → AluOut) (x y : Reg) : (s.writeAlu op x y).redraw = s.redraw := by
  unfold State.writeAlu; split <;> rfl
@[simp] theorem State.writeAlu_params (op : Byte → Byte → AluOut) (x y : Reg) : (s.writeAlu op x y).params = s.params := by
  unfold State.writeAlu; split <;> rfl
@[simp] theorem State.writeAlu_draws (op : Byte → Byte → AluOut) (x y : Reg) : (s.writeAlu op x y).draws = s.draws := by
  unfold State.writeAlu; split <;> rfl
@[simp] theorem State.writeAlu_audio (op : Byte → Byte → AluOut) (x y : Reg) : (s.writeAlu op x y).audio = s.audio := by
  unfold State.writeAlu; split <;> rfl

/-! Registers -/

/-- Reading a register after writing one. -/
theorem State.reg_setReg (r q : Reg) (b : Byte) : (s.setReg r b).reg q = if q = r then b else s.reg q := by
  simp only [State.reg, State.setReg, Vector.getElem_set, Fin.ext_iff]
  grind

@[simp] theorem State.reg_setReg_same (r : Reg) (b : Byte) : (s.setReg r b).reg r = b := by
  simp [State.reg_setReg]

theorem State.reg_setReg_other {r q : Reg} (h : q ≠ r) (b : Byte) : (s.setReg r b).reg q = s.reg q := by
  simp [State.reg_setReg, h]

/-- A state is determined by its registers one by one. -/
theorem State.v_ext {s t : State} (h : ∀ r, s.reg r = t.reg r) : s.v = t.v := by
  refine Vector.ext fun k hk => ?_
  exact h ⟨k, hk⟩

@[simp] theorem State.reg_setI (a : Word) (r : Reg) : (s.setI a).reg r = s.reg r := rfl
@[simp] theorem State.reg_setPC (a : Word) (r : Reg) : (s.setPC a).reg r = s.reg r := rfl
@[simp] theorem State.reg_advance (r : Reg) : s.advance.reg r = s.reg r := rfl
@[simp] theorem State.reg_skipIf (c : Bool) (r : Reg) : (s.skipIf c).reg r = s.reg r := by cases c <;> rfl
@[simp] theorem State.reg_setDT (b : Byte) (r : Reg) : (s.setDT b).reg r = s.reg r := rfl
@[simp] theorem State.reg_setST (b : Byte) (r : Reg) : (s.setST b).reg r = s.reg r := rfl
@[simp] theorem State.reg_setFB (f : Framebuffer) (r : Reg) : (s.setFB f).reg r = s.reg r := rfl
@[simp] theorem State.reg_setKeys (k : Vector Bool 16) (r : Reg) : (s.setKeys k).reg r = s.reg r := rfl

end Sys2Proof.Machine
end

