-- ==== Sys2Proof/Laws/Ops.lean ====
section
/-! SUPPORT. One lemma per shared operation that says once everything it can do: bounds, the call stack, keys, the flag
write, fetch, and the step. -/

namespace Sys2Proof.Machine

@[simp] theorem raise_ne_next (s t : State) (f : Word → Fault) : raise s f ≠ .next t := by
  intro h; cases h

@[simp] theorem next_inj {s t : State} : (Host.Outcome.next s : Result) = .next t ↔ s = t :=
  ⟨fun h => by cases h; rfl, fun h => by rw [h]⟩

@[simp] theorem fault_inj {f g : Fault} : (Host.Outcome.fault f : Result) = .fault g ↔ f = g :=
  ⟨fun h => by cases h; rfl, fun h => by rw [h]⟩

@[simp] theorem fault_ne_next (f : Fault) (t : State) : (Host.Outcome.fault f : Result) ≠ .next t := by
  intro h; cases h

@[simp] theorem next_ne_fault (f : Fault) (t : State) : (Host.Outcome.next t : Result) ≠ .fault f := by
  intro h; cases h

/-! ### Bounds -/

theorem withIndexRange_fits {s : State} {count : Nat} (k : Result) (h : count = 0 ∨ s.i.toNat + count ≤ 0x1000) :
    withIndexRange s count k = k := by
  simp [withIndexRange, firstOutOfBounds, State.indexAddr, memSize, h]

theorem withIndexRange_past {s : State} {count : Nat} (k : Result) (h0 : 0 < count)
    (h : 0x1000 < s.i.toNat + count) :
    withIndexRange s count k = .fault (.outOfBounds (max s.i.toNat 0x1000) s.pc) := by
  have h1 : ¬(count = 0 ∨ s.i.toNat + count ≤ 0x1000) := by omega
  simp [withIndexRange, firstOutOfBounds, State.indexAddr, memSize, h1, raise]

/-- A bounds-checked instruction answers a next state exactly when all its addresses are in MEM. -/
theorem withIndexRange_eq_next {s t u : State} {count : Nat} :
    withIndexRange s count (.next t) = .next u ↔ t = u ∧ (count = 0 ∨ s.i.toNat + count ≤ 0x1000) := by
  by_cases h : count = 0 ∨ s.i.toNat + count ≤ 0x1000
  · rw [withIndexRange_fits _ h]
    simp [h]
  · rw [withIndexRange_past _ (by omega) (by omega)]
    simp [h]

/-! ### The call stack -/

theorem pushAndJump_full {s : State} (h : s.sp.val = 16) (target : Word) :
    pushAndJump s target = .fault (.stackOverflow s.pc) := by
  simp [pushAndJump, h, raise]

theorem pushAndJump_room {s : State} (h : s.sp.val < 16) (target : Word) :
    pushAndJump s target =
      .next { s with stack := s.stack.set s.sp.val s.pc, sp := ⟨s.sp.val + 1, by omega⟩, pc := target } := by
  simp [pushAndJump, h]

theorem pushAndJump_eq_next {s t : State} {target : Word} :
    pushAndJump s target = .next t ↔ ∃ h : s.sp.val < 16,
      { s with stack := s.stack.set s.sp.val s.pc, sp := ⟨s.sp.val + 1, by omega⟩, pc := target } = t := by
  unfold pushAndJump
  split <;> simp [*]

theorem popAndReturn_empty {s : State} (h : s.sp.val = 0) : popAndReturn s = .fault (.stackUnderflow s.pc) := by
  simp [popAndReturn, h, raise]

theorem popAndReturn_eq_next {s t : State} :
    popAndReturn s = .next t ↔ ∃ _ : s.sp.val ≠ 0,
      { s with sp := ⟨s.sp.val - 1, by omega⟩, pc := s.stack[s.sp.val - 1]'(by omega) + 2 } = t := by
  unfold popAndReturn
  split <;> simp [*]

/-! ### Keys -/

theorem keyPressed_of_lt (s : State) {k : Nat} (h : k < 16) : s.keyPressed k = some s.key[k] := by
  simp [State.keyPressed, h]

theorem keyPressed_of_ge (s : State) {k : Nat} (h : 15 < k) : s.keyPressed k = none := by
  simp [State.keyPressed]; omega

/-- The scan finds key k exactly when k is pressed and no lower key is. -/
theorem lowestKey_eq_some {s : State} {k : Nat} :
    s.lowestKey = some k ↔ ∃ h : k < 16, s.key[k] = true ∧ ∀ j (hj : j < k), s.key[j]'(by omega) = false := by
  simp [State.lowestKey, List.findIdx?_eq_some_iff_getElem]

theorem lowestKey_eq_none {s : State} : s.lowestKey = none ↔ ∀ k : Fin 16, s.key[k.val] = false := by
  simp only [State.lowestKey, List.findIdx?_eq_none_iff]
  constructor
  · intro h k
    simpa using h s.key[k.val] (by simp)
  · intro h b hb
    obtain ⟨k, hk, rfl⟩ := List.getElem_of_mem hb
    simpa using h ⟨k, by simpa using hk⟩

/-! ### The flag write -/

@[simp] theorem flagByte_toNat (c : Bool) : (flagByte c).toNat = if c then 1 else 0 := by cases c <;> rfl

/-- Every register after a flag-producing instruction, for each write order (R91). -/
theorem reg_writeAlu (s : State) (op : Byte → Byte → AluOut) (x y r : Reg) :
    (s.writeAlu op x y).reg r =
      let out := op (s.reg x) (s.reg y)
      let f := flagByte out.flag
      match s.params.vfOrder with
      | .flagThenResult => if r = x then out.result else if r = 15 then f else s.reg r
      | .resultThenFlag => if r = 15 then f else if r = x then out.result else s.reg r
      | .sequential =>
        if r = x then (op (if x = 15 then f else s.reg x) (if y = 15 then f else s.reg y)).result
        else if r = 15 then f else s.reg r := by
  unfold State.writeAlu
  cases s.params.vfOrder <;> simp only [State.reg_setReg, vf]

/-- Of the state, a flag-producing instruction writes registers only (R91). -/
theorem State.writeAlu_eq (s : State) (op : Byte → Byte → AluOut) (x y : Reg) :
    s.writeAlu op x y = { s with v := (s.writeAlu op x y).v } := by
  unfold State.writeAlu
  cases s.params.vfOrder <;> rfl

/-! ### Skips and address operands -/

theorem State.skipIf_eq (s : State) (c : Bool) :
    s.skipIf c = { s with pc := if c then s.pc + 4 else s.pc + 2 } := by
  cases c <;> rfl

@[simp] theorem zext16_toNat (nnn : BitVec 12) : (zext16 nnn).toNat = nnn.toNat := by
  have := nnn.isLt
  simp only [zext16, BitVec.toNat_ofNat]
  omega

/-! ### Fetch and step -/

theorem fetchWord_ok {s : State} (h : s.pc.toNat ≤ 0xFFE) :
    fetchWord s = .ok (bigEndian (s.mem.read s.pc.toNat) (s.mem.read (s.pc.toNat + 1))) := by
  unfold fetchWord
  rw [if_neg (by omega), if_neg (by omega)]

theorem fetchWord_eq_ok {s : State} {w : Word} :
    fetchWord s = .ok w ↔
      s.pc.toNat ≤ 0xFFE ∧ bigEndian (s.mem.read s.pc.toNat) (s.mem.read (s.pc.toNat + 1)) = w := by
  unfold fetchWord
  split
  · simp; omega
  · split
    · simp; omega
    · simp; omega

theorem bigEndian_toNat (hi lo : Byte) : (bigEndian hi lo).toNat = hi.toNat * 256 + lo.toNat := by
  have h1 := hi.isLt
  have h2 := lo.isLt
  simp only [bigEndian, BitVec.toNat_ofNat]
  omega

/-- What a step can do when it answers a next state (R71). -/
theorem step_eq_next {s t : State} :
    step s = .next t ↔ ∃ w i u, fetchWord s = .ok w ∧ decodeWord s.params w = some i ∧ exec i s = .next u ∧
      tick i s u = t := by
  unfold step
  constructor
  · intro h
    split at h
    · simp at h
    · rename_i w hw
      split at h
      · simp at h
      · rename_i i hi
        split at h <;> simp_all
  · rintro ⟨w, i, u, hw, hi, hu, rfl⟩
    simp [hw, hi, hu]

theorem step_of_decoded {s : State} {w : Word} {i : Instr} (hw : fetchWord s = .ok w)
    (hi : decodeWord s.params w = some i) :
    step s = match exec i s with
      | .next t => .next (tick i s t)
      | .fault f => .fault f
      | .refused r => .refused r := by
  cases h : exec i s <;> simp only [step, hw, hi, h]

theorem tickTimer_toNat (t : Byte) : (tickTimer t).toNat = t.toNat - 1 := by
  unfold tickTimer
  split
  · simp_all
  · rename_i h
    have : t.toNat ≠ 0 := fun e => h (BitVec.eq_of_toNat_eq (by simpa using e))
    have := t.isLt
    rw [BitVec.toNat_sub]
    simp
    omega

end Sys2Proof.Machine
end

