-- ==== Sys2Proof/Laws/Flags.lean ====
section
/-! SUPPORT. The flag write as the closed form `aluReg`: what is left to show of an ALU instruction is its flag and its
result as integers (43_alu.md R91). -/

namespace Sys2Proof.Machine

theorem writeAlu_toNat (s : State) (op : Byte → Byte → AluOut) {flag res : Nat → Nat → Nat}
    (hflag : ∀ a b, (flagByte (op a b).flag).toNat = flag a.toNat b.toNat)
    (hres : ∀ a b, (op a b).result.toNat = res a.toNat b.toNat) (x y r : Reg) :
    ((s.writeAlu op x y).reg r).toNat = aluReg s flag res x y r := by
  rw [reg_writeAlu]
  unfold aluReg
  cases s.params.vfOrder <;> simp only <;> split
  case sequential.isTrue =>
    rw [hres]
    congr 1 <;> split <;> first | rw [hflag] | rfl
  case sequential.isFalse => split <;> first | rw [hflag] | rfl
  all_goals first | rw [hres] | rw [hflag] | (split <;> first | rw [hres] | rw [hflag] | rfl)

end Sys2Proof.Machine
end

