-- ==== Sys2Proof/Laws/PerInstr.lean ====
section
/-! SUPPORT. Per instruction: the word the encoder makes belongs to the instruction's row of the opcode map. -/

namespace Sys2Proof.Laws.EncodesRow

/-- The encoding of an instruction matches its own row, which is a row of the opcode map (R55). -/
def Statement (i : Instr) : Prop := i.row.covers (encode i) = true ∧ i.row ∈ opcodeMap

theorem op00E0 : Statement .op00E0 :=
  ⟨rfl, of_decide_eq_true rfl⟩

theorem op00EE : Statement .op00EE :=
  ⟨rfl, of_decide_eq_true rfl⟩

theorem op1nnn (nnn : BitVec 12) : Statement (.op1nnn nnn) :=
  ⟨covers_encNNN (by decide) _ rfl nnn, of_decide_eq_true rfl⟩

theorem op2nnn (nnn : BitVec 12) : Statement (.op2nnn nnn) :=
  ⟨covers_encNNN (by decide) _ rfl nnn, of_decide_eq_true rfl⟩

theorem op3xnn (x : Reg) (nn : Byte) : Statement (.op3xnn x nn) :=
  ⟨covers_encXNN (by decide) nn.isLt _ rfl x, of_decide_eq_true rfl⟩

theorem op4xnn (x : Reg) (nn : Byte) : Statement (.op4xnn x nn) :=
  ⟨covers_encXNN (by decide) nn.isLt _ rfl x, of_decide_eq_true rfl⟩

theorem op5xy0 (x y : Reg) : Statement (.op5xy0 x y) :=
  ⟨covers_encXY (by decide) (by decide) _ rfl x y, of_decide_eq_true rfl⟩

theorem op6xnn (x : Reg) (nn : Byte) : Statement (.op6xnn x nn) :=
  ⟨covers_encXNN (by decide) nn.isLt _ rfl x, of_decide_eq_true rfl⟩

theorem op7xnn (x : Reg) (nn : Byte) : Statement (.op7xnn x nn) :=
  ⟨covers_encXNN (by decide) nn.isLt _ rfl x, of_decide_eq_true rfl⟩

theorem op8xy0 (x y : Reg) : Statement (.op8xy0 x y) :=
  ⟨covers_encXY (by decide) (by decide) _ rfl x y, of_decide_eq_true rfl⟩

theorem op8xy1 (x y : Reg) : Statement (.op8xy1 x y) :=
  ⟨covers_encXY (by decide) (by decide) _ rfl x y, of_decide_eq_true rfl⟩

theorem op8xy2 (x y : Reg) : Statement (.op8xy2 x y) :=
  ⟨covers_encXY (by decide) (by decide) _ rfl x y, of_decide_eq_true rfl⟩

theorem op8xy3 (x y : Reg) : Statement (.op8xy3 x y) :=
  ⟨covers_encXY (by decide) (by decide) _ rfl x y, of_decide_eq_true rfl⟩

theorem op8xy4 (x y : Reg) : Statement (.op8xy4 x y) :=
  ⟨covers_encXY (by decide) (by decide) _ rfl x y, of_decide_eq_true rfl⟩

theorem op8xy5 (x y : Reg) : Statement (.op8xy5 x y) :=
  ⟨covers_encXY (by decide) (by decide) _ rfl x y, of_decide_eq_true rfl⟩

theorem op8xy6 (x y : Reg) : Statement (.op8xy6 x y) :=
  ⟨covers_encXY (by decide) (by decide) _ rfl x y, of_decide_eq_true rfl⟩

theorem op8xy7 (x y : Reg) : Statement (.op8xy7 x y) :=
  ⟨covers_encXY (by decide) (by decide) _ rfl x y, of_decide_eq_true rfl⟩

theorem op8xyE (x y : Reg) : Statement (.op8xyE x y) :=
  ⟨covers_encXY (by decide) (by decide) _ rfl x y, of_decide_eq_true rfl⟩

theorem op9xy0 (x y : Reg) : Statement (.op9xy0 x y) :=
  ⟨covers_encXY (by decide) (by decide) _ rfl x y, of_decide_eq_true rfl⟩

theorem opAnnn (nnn : BitVec 12) : Statement (.opAnnn nnn) :=
  ⟨covers_encNNN (by decide) _ rfl nnn, of_decide_eq_true rfl⟩

theorem opBnnn (nnn : BitVec 12) : Statement (.opBnnn nnn) :=
  ⟨covers_encNNN (by decide) _ rfl nnn, of_decide_eq_true rfl⟩

theorem opCxnn (x : Reg) (nn : Byte) : Statement (.opCxnn x nn) :=
  ⟨covers_encXNN (by decide) nn.isLt _ rfl x, of_decide_eq_true rfl⟩

theorem opDxyn (x y : Reg) (n : Fin 16) : Statement (.opDxyn x y n) :=
  ⟨covers_encXYN (by decide) n.isLt _ rfl x y, of_decide_eq_true rfl⟩

theorem opEx9E (x : Reg) : Statement (.opEx9E x) :=
  ⟨covers_encXK (by decide) (by decide) _ rfl x, of_decide_eq_true rfl⟩

theorem opExA1 (x : Reg) : Statement (.opExA1 x) :=
  ⟨covers_encXK (by decide) (by decide) _ rfl x, of_decide_eq_true rfl⟩

theorem opFx07 (x : Reg) : Statement (.opFx07 x) :=
  ⟨covers_encXK (by decide) (by decide) _ rfl x, of_decide_eq_true rfl⟩

theorem opFx0A (x : Reg) : Statement (.opFx0A x) :=
  ⟨covers_encXK (by decide) (by decide) _ rfl x, of_decide_eq_true rfl⟩

theorem opFx15 (x : Reg) : Statement (.opFx15 x) :=
  ⟨covers_encXK (by decide) (by decide) _ rfl x, of_decide_eq_true rfl⟩

theorem opFx18 (x : Reg) : Statement (.opFx18 x) :=
  ⟨covers_encXK (by decide) (by decide) _ rfl x, of_decide_eq_true rfl⟩

theorem opFx1E (x : Reg) : Statement (.opFx1E x) :=
  ⟨covers_encXK (by decide) (by decide) _ rfl x, of_decide_eq_true rfl⟩

theorem opFx29 (x : Reg) : Statement (.opFx29 x) :=
  ⟨covers_encXK (by decide) (by decide) _ rfl x, of_decide_eq_true rfl⟩

theorem opFx33 (x : Reg) : Statement (.opFx33 x) :=
  ⟨covers_encXK (by decide) (by decide) _ rfl x, of_decide_eq_true rfl⟩

theorem opFx55 (x : Reg) : Statement (.opFx55 x) :=
  ⟨covers_encXK (by decide) (by decide) _ rfl x, of_decide_eq_true rfl⟩

theorem opFx65 (x : Reg) : Statement (.opFx65 x) :=
  ⟨covers_encXK (by decide) (by decide) _ rfl x, of_decide_eq_true rfl⟩

end Sys2Proof.Laws.EncodesRow
end

