-- ==== Sys2Proof/Laws/Run.lean ====
section
/-! SUPPORT. What `stateAfter` can answer (70_reset_and_hazards.md R145): one lemma per shape of the list of key
vectors. -/

namespace Sys2Proof.Machine

@[simp] theorem stateAfter_nil (s : State) : stateAfter [] s = some s := rfl

/-- The first step succeeds and the rest goes on from its state. -/
theorem stateAfter_cons {k : Vector Bool 16} {rest : List (Vector Bool 16)} {s u : State} :
    stateAfter (k :: rest) s = some u ↔ ∃ t, step (s.setKeys k) = .next t ∧ stateAfter rest t = some u := by
  simp only [stateAfter]
  split <;> simp [*]

/-- After a successful first step, what remains is the run from its state. -/
theorem stateAfter_of_next {k : Vector Bool 16} {s t : State} (h : step (s.setKeys k) = .next t)
    (rest : List (Vector Bool 16)) : stateAfter (k :: rest) s = stateAfter rest t := by
  simp only [stateAfter, h]

end Sys2Proof.Machine
end

