-- ==== Sys2Proof/Laws/Sprite.lean ====
section
/-! SUPPORT. What the drawing loops do to each pixel and to the collision bit (41_display.md R73, R74): one lemma for a
flip, one for a sprite row, one for the whole sprite. -/

namespace Sys2Proof.Machine

/-- Pixel (r, c) of a framebuffer. -/
def Blit.pixel (p : Blit) (r : Fin 32) (c : Fin 64) : Bool := p.fb[r.val][c.val]

/-- One flip changes its own pixel only. -/
theorem Blit.pixel_flip (p : Blit) (r i : Fin 32) (c j : Fin 64) :
    (p.flip r c).pixel i j = (p.pixel i j ^^ (decide (i = r) && decide (j = c))) := by
  simp only [Blit.pixel, Blit.flip, Vector.getElem_set]
  by_cases hi : i = r
  · subst hi
    by_cases hj : j = c
    · subst hj
      simp
    · have : c.val ≠ j.val := fun e => hj (Fin.ext e.symm)
      simp [hj, this]
  · have : r.val ≠ i.val := fun e => hi (Fin.ext e.symm)
    simp [hi, this]

theorem Blit.collide_flip (p : Blit) (r : Fin 32) (c : Fin 64) :
    (p.flip r c).collide = (p.collide || p.pixel r c) := rfl

/-- The column of the sprite that falls on screen column j. -/
def spriteColumn (cx : Nat) (j : Fin 64) : Nat := (j.val + 64 - cx) % 64

/-- The row of the sprite that falls on screen row i. -/
def spriteRowOf (cy : Nat) (i : Fin 32) : Nat := (i.val + 32 - cy) % 32

theorem spriteColumn_eq_iff {cx m : Nat} (hcx : cx < 64) (hm : m < 64) (j : Fin 64) :
    spriteColumn cx j = m ↔ j = Fin.ofNat 64 (cx + m) := by
  have := j.isLt
  simp only [spriteColumn, Fin.ext_iff, Fin.ofNat]
  omega

theorem spriteRowOf_eq_iff {cy m : Nat} (hcy : cy < 32) (hm : m < 32) (i : Fin 32) :
    spriteRowOf cy i = m ↔ i = Fin.ofNat 32 (cy + m) := by
  have := i.isLt
  simp only [spriteRowOf, Fin.ext_iff, Fin.ofNat]
  omega

/-- The first m columns of a sprite row: the pixels, and the collision bit. -/
theorem Blit.columns_spec (p : Blit) (bits : Byte) (r : Fin 32) {cx : Nat} (hcx : cx < 64) (m : Nat) (hm : m ≤ 8) :
    let q := (List.range m).foldl
      (fun q b => if bits.getLsbD (7 - b) then q.flip r (Fin.ofNat 64 (cx + b)) else q) p
    (∀ i j, q.pixel i j = (p.pixel i j ^^
      (decide (i = r) && (decide (spriteColumn cx j < m) && bits.getLsbD (7 - spriteColumn cx j))))) ∧
    (q.collide = true ↔ p.collide = true ∨
      ∃ j, spriteColumn cx j < m ∧ bits.getLsbD (7 - spriteColumn cx j) = true ∧ p.pixel r j = true) := by
  induction m with
  | zero => simp
  | succ m ih =>
    obtain ⟨ihp, ihc⟩ := ih (by omega)
    have hcol := fun j => spriteColumn_eq_iff hcx (show m < 64 by omega) j
    have hlt : ∀ j, spriteColumn cx j < m + 1 ↔ spriteColumn cx j < m ∨ spriteColumn cx j = m := by
      intro j; omega
    have hself : spriteColumn cx (Fin.ofNat 64 (cx + m)) = m := (hcol _).mpr rfl
    simp only [List.range_succ, List.foldl_append, List.foldl_cons, List.foldl_nil]
    generalize Fin.ofNat 64 (cx + m) = c at hcol hself ⊢
    cases hb : bits.getLsbD (7 - m)
    · refine ⟨fun i j => ?_, ?_⟩
      · simp only [Bool.false_eq_true, if_false, ihp]
        by_cases h : spriteColumn cx j = m
        · simp [h, hb]
        · have : (spriteColumn cx j < m + 1) = (spriteColumn cx j < m) := propext (by omega)
          simp [this]
      · simp only [Bool.false_eq_true, if_false, ihc]
        refine or_congr_right (exists_congr fun j => ?_)
        by_cases h : spriteColumn cx j = m
        · simp [h, hb]
        · have : (spriteColumn cx j < m + 1) = (spriteColumn cx j < m) := propext (by omega)
          simp [this]
    · refine ⟨fun i j => ?_, ?_⟩
      · simp only [if_true, Blit.pixel_flip, ihp]
        by_cases h : spriteColumn cx j = m
        · have hj := (hcol j).mp h
          simp [h, hb, ← hj]
        · have hj : j ≠ c := fun e => h ((hcol j).mpr e)
          have : (spriteColumn cx j < m + 1) = (spriteColumn cx j < m) := propext (by omega)
          simp [this, hj]
      · simp only [if_true, Blit.collide_flip, Bool.or_eq_true, ihc, ihp, hself]
        constructor
        · rintro ((h | ⟨j, hj, hbit, hpix⟩) | h)
          · exact Or.inl h
          · exact Or.inr ⟨j, by omega, hbit, hpix⟩
          · exact Or.inr ⟨c, by omega, by rw [hself]; exact hb, by simpa using h⟩
        · rintro (h | ⟨j, hj, hbit, hpix⟩)
          · exact Or.inl (Or.inl h)
          · by_cases h : spriteColumn cx j = m
            · rw [(hcol j).mp h] at hpix
              exact Or.inr (by simpa using hpix)
            · exact Or.inl (Or.inr ⟨j, by omega, hbit, hpix⟩)

/-- One sprite row: the pixels, and the collision bit. -/
theorem Blit.spriteRow_spec (p : Blit) (bits : Byte) (r : Fin 32) {cx : Nat} (hcx : cx < 64) :
    (∀ i j, (p.spriteRow bits r cx).pixel i j = (p.pixel i j ^^
      (decide (i = r) && (decide (spriteColumn cx j < 8) && bits.getLsbD (7 - spriteColumn cx j))))) ∧
    ((p.spriteRow bits r cx).collide = true ↔ p.collide = true ∨
      ∃ j, spriteColumn cx j < 8 ∧ bits.getLsbD (7 - spriteColumn cx j) = true ∧ p.pixel r j = true) :=
  Blit.columns_spec p bits r hcx 8 (Nat.le_refl 8)

theorem spriteBit_eq (m : Memory) (a cx cy n : Nat) (i : Fin 32) (j : Fin 64) :
    spriteBit m a cx cy n i j = (decide (spriteRowOf cy i < n) &&
      (decide (spriteColumn cx j < 8) && (m.read (a + spriteRowOf cy i)).getLsbD (7 - spriteColumn cx j))) :=
  Bool.and_assoc _ _ _

/-- The whole sprite is the closed form `spriteBit`: each pixel is XORed with the sprite's bit there, and a collision is
a lit pixel under a set sprite bit. -/
theorem Blit.sprite_spec (p : Blit) (m : Memory) (a : Nat) {cx cy : Nat} (hcx : cx < 64) (hcy : cy < 32) (n : Nat)
    (hn : n ≤ 32) :
    (∀ i j, (p.sprite m a cx cy n).pixel i j = (p.pixel i j ^^ spriteBit m a cx cy n i j)) ∧
    ((p.sprite m a cx cy n).collide = true ↔ p.collide = true ∨
      ∃ i j, p.pixel i j = true ∧ spriteBit m a cx cy n i j = true) := by
  simp only [spriteBit_eq]
  induction n with
  | zero => simp [Blit.sprite]
  | succ n ih =>
    obtain ⟨ihp, ihc⟩ := ih (by omega)
    have hrow := fun i => spriteRowOf_eq_iff hcy (show n < 32 by omega) i
    have hself : spriteRowOf cy (Fin.ofNat 32 (cy + n)) = n := (hrow _).mpr rfl
    have hstep : p.sprite m a cx cy (n + 1) =
        (p.sprite m a cx cy n).spriteRow (m.read (a + n)) (Fin.ofNat 32 (cy + n)) cx := by
      simp [Blit.sprite, List.range_succ]
    obtain ⟨hp, hc⟩ := Blit.spriteRow_spec (p.sprite m a cx cy n) (m.read (a + n)) (Fin.ofNat 32 (cy + n)) hcx
    rw [hstep]
    generalize Fin.ofNat 32 (cy + n) = r at hrow hself hp hc ⊢
    refine ⟨fun i j => ?_, ?_⟩
    · rw [hp, ihp]
      by_cases h : spriteRowOf cy i = n
      · have hi := (hrow i).mp h
        simp [h, ← hi]
      · have hi : i ≠ r := fun e => h ((hrow i).mpr e)
        have : (spriteRowOf cy i < n + 1) = (spriteRowOf cy i < n) := propext (by omega)
        simp [this, hi]
    · rw [hc, ihc]
      simp only [ihp, hself, Bool.and_eq_true, decide_eq_true_eq]
      constructor
      · rintro ((h | ⟨i, j, hpix, hi, hj, hbit⟩) | ⟨j, hj, hbit, hpix⟩)
        · exact Or.inl h
        · exact Or.inr ⟨i, j, hpix, by omega, hj, hbit⟩
        · exact Or.inr ⟨r, j, by simpa using hpix, by omega, hj, by rw [hself]; exact hbit⟩
      · rintro (h | ⟨i, j, hpix, hi, hj, hbit⟩)
        · exact Or.inl (Or.inl h)
        · by_cases h : spriteRowOf cy i = n
          · rw [h] at hbit
            rw [(hrow i).mp h] at hpix
            exact Or.inr ⟨j, hj, hbit, by simpa using hpix⟩
          · exact Or.inl (Or.inr ⟨i, j, hpix, by omega, hj, hbit⟩)

end Sys2Proof.Machine
end

