-- ==== Sys2Proof/Tests/Slice0.lean ====
section
/-! SUPPORT. Tests on fixed values, their expected results taken from the spec's own examples (the rule is named before
each group), and a witness for the hypotheses of every obligation that has some. -/

namespace Sys2Proof.Tests

open Sys2Proof Sys2Proof.Machine

/-! ### Helpers -/

/-- The outcome is a next state that passes the check. -/
def nextWith (o : Result) (check : State → Bool) : Bool :=
  match o with
  | .next t => check t
  | .fault _ | .refused _ => false

/-- The outcome is this fault. -/
def faultsWith (o : Result) (f : Fault) : Bool :=
  match o with
  | .fault g => g == f
  | .next _ | .refused _ => false

theorem next_of_check {o : Result} (h : nextWith o (fun _ => true) = true) : ∃ t, o = .next t := by
  cases o with
  | next t => exact ⟨t, rfl⟩
  | fault f => cases h
  | refused r => cases h

theorem fault_of_check {o : Result} {f : Fault} (h : faultsWith o f = true) : o = .fault f := by
  cases o with
  | next t => cases h
  | fault g => rw [eq_of_beq h]
  | refused r => cases h

/-- One step from `s` with `w` placed at PC. -/
def run (w : Nat) (s : State) : Result := step (s.withFetchWord 16 w)

/-- Reset with P_SHL = ShiftLeft. -/
def shiftLeftEngine : State := { State.reset with params := allRowsParams }

/-- Reset with P_BNNN = PushThenJump. -/
def pushingEngine : State := { State.reset with params := { defaultParams with bnnn := .pushThenJump } }

/-- Reset with P_AUDIO = PerActivation. -/
def activationEngine : State := { State.reset with params := { defaultParams with audio := .perActivation } }

/-- The key latch with keys 3 and 9 pressed (R111). -/
def keys3and9 : Vector Bool 16 := ((Vector.replicate 16 false).set 3 true).set 9 true

/-! ### WellFormed: its one check refuses (R58) -/

theorem test_wf_refuses_8xyE : (Instr.op8xyE 2 0).wf defaultParams = false := by decide
theorem test_wf_admits_8xyE : (Instr.op8xyE 2 0).wf allRowsParams = true := by decide

/-! ### Decoding: one word of every row, written from R52 and R55 -/

theorem test_decode_system : decodeWord defaultParams 0x00E0 = some .op00E0 ∧
    decodeWord defaultParams 0x00EE = some .op00EE := by decide
theorem test_decode_jump : decodeWord defaultParams 0x1234 = some (.op1nnn 0x234) ∧
    decodeWord defaultParams 0x2210 = some (.op2nnn 0x210) ∧
    decodeWord defaultParams 0xB300 = some (.opBnnn 0x300) := by decide
theorem test_decode_skip : decodeWord defaultParams 0x3342 = some (.op3xnn 3 0x42) ∧
    decodeWord defaultParams 0x4342 = some (.op4xnn 3 0x42) ∧
    decodeWord defaultParams 0x5120 = some (.op5xy0 1 2) ∧
    decodeWord defaultParams 0x9120 = some (.op9xy0 1 2) := by decide
theorem test_decode_immediate : decodeWord defaultParams 0x6A2B = some (.op6xnn 10 0x2B) ∧
    decodeWord defaultParams 0x7220 = some (.op7xnn 2 0x20) ∧
    decodeWord defaultParams 0xC30F = some (.opCxnn 3 0x0F) := by decide
theorem test_decode_logic : decodeWord defaultParams 0x8010 = some (.op8xy0 0 1) ∧
    decodeWord defaultParams 0x8011 = some (.op8xy1 0 1) ∧
    decodeWord defaultParams 0x8012 = some (.op8xy2 0 1) ∧
    decodeWord defaultParams 0x8013 = some (.op8xy3 0 1) := by decide
theorem test_decode_alu : decodeWord defaultParams 0x8124 = some (.op8xy4 1 2) ∧
    decodeWord defaultParams 0x8125 = some (.op8xy5 1 2) ∧
    decodeWord defaultParams 0x8236 = some (.op8xy6 2 3) ∧
    decodeWord defaultParams 0x8017 = some (.op8xy7 0 1) ∧
    decodeWord allRowsParams 0x820E = some (.op8xyE 2 0) := by decide
theorem test_decode_index : decodeWord defaultParams 0xA2F0 = some (.opAnnn 0x2F0) ∧
    decodeWord defaultParams 0xF41E = some (.opFx1E 4) ∧
    decodeWord defaultParams 0xF029 = some (.opFx29 0) ∧
    decodeWord defaultParams 0xF633 = some (.opFx33 6) ∧
    decodeWord defaultParams 0xF255 = some (.opFx55 2) ∧
    decodeWord defaultParams 0xF265 = some (.opFx65 2) := by decide
theorem test_decode_draw : decodeWord defaultParams 0xD12F = some (.opDxyn 1 2 15) := by decide
theorem test_decode_keys : decodeWord defaultParams 0xE59E = some (.opEx9E 5) ∧
    decodeWord defaultParams 0xE5A1 = some (.opExA1 5) ∧
    decodeWord defaultParams 0xF10A = some (.opFx0A 1) := by decide
theorem test_decode_timers : decodeWord defaultParams 0xF107 = some (.opFx07 1) ∧
    decodeWord defaultParams 0xF015 = some (.opFx15 0) ∧
    decodeWord defaultParams 0xF218 = some (.opFx18 2) := by decide
/-- Words of R57. -/
theorem test_decode_rejects : decodeWord defaultParams 0x0000 = none ∧ decodeWord defaultParams 0x00E1 = none ∧
    decodeWord defaultParams 0x5121 = none ∧ decodeWord defaultParams 0x8008 = none ∧
    decodeWord defaultParams 0x820E = none ∧ decodeWord allRowsParams 0x800F = none ∧
    decodeWord defaultParams 0x9001 = none ∧ decodeWord defaultParams 0xE09F = none ∧
    decodeWord defaultParams 0xF000 = none := by decide
theorem test_decode_truncated : decode defaultParams [0x12] = .error .truncated := by decide
theorem test_decode_big_endian : decode defaultParams [0xA2, 0xF0, 0x01] = .ok (.opAnnn 0x2F0, [0x01]) := by decide
theorem test_decode_table_word : decodeTableWord 16 0x820E = some (.op8xyE 2 0) := by decide

/-! ### Display (R72 to R75) -/

theorem test_clear : nextWith (run 0x00E0 { State.reset with fb := Vector.replicate 32 (Vector.replicate 64 true) })
    (fun t => !t.fb[0][0] && !t.fb[31][63] && t.redraw && t.pc == 0x202) = true := by decide
/-- A sprite at column 60 wraps to columns 60..63 and 0..3 (§8). -/
theorem test_draw_wraps : nextWith
    (run 0xD011 { (State.reset.setReg 0 60).setReg 1 31 with mem := Memory.write [] 0x300 0xFF, i := 0x300 })
    (fun t => t.fb[31].toList == List.replicate 4 true ++ List.replicate 56 false ++ List.replicate 4 true &&
      t.fb[0] == Vector.replicate 64 false && t.reg 15 == 0 && t.redraw) = true := by decide
/-- Bit 7 is the leftmost pixel, and a lit pixel turned off is a collision. -/
theorem test_draw_collides : nextWith
    (run 0xD011 { State.reset with
      mem := Memory.write [] 0x300 0xC0, i := 0x300, fb := Framebuffer.clear.set 0 ((Vector.replicate 64 false).set 1 true) })
    (fun t => t.fb[0][0] && !t.fb[0][1] && t.reg 15 == 1) = true := by decide

/-! ### Control flow (R76 to R83) -/

theorem test_return : nextWith
    (run 0x00EE { State.reset with sp := 1, stack := (Vector.replicate 16 0).set 0 0x204, pc := 0x212 })
    (fun t => t.sp == 0 && t.pc == 0x206) = true := by decide
theorem test_return_underflow : faultsWith (run 0x00EE State.reset) (.stackUnderflow 0x200) = true := by decide
theorem test_jump : nextWith (run 0x1234 State.reset) (fun t => t.pc == 0x234) = true := by decide
theorem test_call : nextWith (run 0x2210 { State.reset with pc := 0x204 })
    (fun t => t.stack[0] == 0x204 && t.sp == 1 && t.pc == 0x210) = true := by decide
theorem test_call_overflow : faultsWith (run 0x2210 { State.reset with sp := 16 }) (.stackOverflow 0x200) = true := by
  decide
theorem test_skip_equal_immediate : nextWith (run 0x3342 (State.reset.setReg 3 0x42)) (fun t => t.pc == 0x204) = true := by
  decide
theorem test_skip_unequal_immediate : nextWith (run 0x4342 (State.reset.setReg 3 0x42))
    (fun t => t.pc == 0x202) = true := by decide
theorem test_skip_equal : nextWith (run 0x5120 { (State.reset.setReg 1 7).setReg 2 7 with pc := 0x300 })
    (fun t => t.pc == 0x304) = true := by decide
theorem test_skip_unequal : nextWith (run 0x9120 { (State.reset.setReg 1 7).setReg 2 8 with pc := 0x300 })
    (fun t => t.pc == 0x304) = true := by decide
theorem test_computed_jump_wraps : nextWith (run 0xBFFF (State.reset.setReg 0 0xFF))
    (fun t => t.pc == 0x0FE && t.sp == 0) = true := by decide
theorem test_computed_jump_pushes : nextWith (run 0xB300 (pushingEngine.setReg 0 0x10))
    (fun t => t.pc == 0x310 && t.sp == 1 && t.stack[0] == 0x200) = true := by decide

/-! ### Registers and ALU (R85 to R97) -/

theorem test_load_immediate : nextWith (run 0x6A2B State.reset) (fun t => t.reg 10 == 0x2B) = true := by decide
theorem test_add_immediate_wraps : nextWith (run 0x7220 (State.reset.setReg 2 0xF0))
    (fun t => t.reg 2 == 0x10 && t.reg 15 == 0) = true := by decide
theorem test_copy : nextWith (run 0x8010 (State.reset.setReg 1 9)) (fun t => t.reg 0 == 9) = true := by decide
theorem test_or : nextWith (run 0x8011 ((State.reset.setReg 0 0x0F).setReg 1 0xF0)) (fun t => t.reg 0 == 0xFF) = true := by
  decide
theorem test_and : nextWith (run 0x8012 ((State.reset.setReg 0 0x3C).setReg 1 0x0F)) (fun t => t.reg 0 == 0x0C) = true := by
  decide
theorem test_xor : nextWith (run 0x8013 ((State.reset.setReg 0 0x3C).setReg 1 0x0F)) (fun t => t.reg 0 == 0x33) = true := by
  decide
theorem test_add_carry : nextWith (run 0x8124 ((State.reset.setReg 1 250).setReg 2 10))
    (fun t => t.reg 1 == 4 && t.reg 15 == 1) = true := by decide
/-- R92: with x = 15, VF = 200 and V[0] = 100, VF ends as 44, 1 or 101 by P_VF_ORDER. -/
theorem test_add_into_vf : ∀ o : VfOrder, nextWith
    (run 0x8F04 { (State.reset.setReg 15 200).setReg 0 100 with params := { defaultParams with vfOrder := o } })
    (fun t => t.reg 15 == match o with | .flagThenResult => 44 | .resultThenFlag => 1 | .sequential => 101) = true := by
  intro o; cases o <;> decide
theorem test_subtract_borrow : nextWith (run 0x8125 ((State.reset.setReg 1 5).setReg 2 10))
    (fun t => t.reg 1 == 251 && t.reg 15 == 0) = true := by decide
theorem test_subtract_equal : nextWith (run 0x8125 (((State.reset.setReg 1 5).setReg 2 5).setReg 15 1))
    (fun t => t.reg 1 == 0 && t.reg 15 == 0) = true := by decide
theorem test_shift_right : nextWith (run 0x8236 ((State.reset.setReg 2 0x05).setReg 3 0xFF))
    (fun t => t.reg 2 == 0x02 && t.reg 15 == 1) = true := by decide
theorem test_reverse_subtract : nextWith (run 0x8017 ((State.reset.setReg 0 3).setReg 1 10))
    (fun t => t.reg 0 == 7 && t.reg 15 == 1) = true := by decide
theorem test_reverse_subtract_borrow : nextWith (run 0x8017 ((State.reset.setReg 0 10).setReg 1 3))
    (fun t => t.reg 0 == 249 && t.reg 15 == 0) = true := by decide
theorem test_shift_left : nextWith (run 0x820E (shiftLeftEngine.setReg 2 0x81))
    (fun t => t.reg 2 == 0x02 && t.reg 15 == 1) = true := by decide
theorem test_shift_left_unsupported : faultsWith (run 0x820E State.reset) (.unsupportedOpcode 0x820E 0x200) = true := by
  decide
/-- R97: the draw itself is free, so only the advance and the count are fixed. -/
theorem test_random : nextWith (run 0xC30F State.reset) (fun t => t.pc == 0x202 && t.draws == 1) = true := by decide

/-! ### Index register and memory (R101 to R106) -/

theorem test_load_index : nextWith (run 0xA2F0 State.reset) (fun t => t.i == 0x2F0) = true := by decide
theorem test_add_index : nextWith (run 0xF41E { State.reset.setReg 4 1 with i := 0xFFF })
    (fun t => t.i == 0x1000 && t.reg 15 == 0) = true := by decide
theorem test_font_index : nextWith (run 0xF029 (State.reset.setReg 0 7)) (fun t => t.i == 0x073) = true := by decide
theorem test_font_index_unmasked : nextWith (run 0xF029 (State.reset.setReg 0 0xFF)) (fun t => t.i == 0x54B) = true := by
  decide
theorem test_decimal : nextWith (run 0xF633 { State.reset.setReg 6 156 with i := 0x400 })
    (fun t => t.mem.read 0x400 == 1 && t.mem.read 0x401 == 5 && t.mem.read 0x402 == 6 && t.i == 0x400) = true := by decide
theorem test_decimal_past_end : faultsWith (run 0xF633 { State.reset with i := 0xFFE }) (.outOfBounds 0x1000 0x200) = true := by
  decide
theorem test_store : nextWith
    (run 0xF255 { ((State.reset.setReg 0 1).setReg 1 2).setReg 2 3 with i := 0x400 })
    (fun t => t.mem.read 0x400 == 1 && t.mem.read 0x402 == 3 && t.mem.read 0x403 == 0 && t.i == 0x400) = true := by decide
theorem test_load : nextWith (run 0xF265 { State.reset with mem := Memory.store [] 0x400 [1, 2, 3], i := 0x400 })
    (fun t => t.reg 0 == 1 && t.reg 2 == 3 && t.reg 3 == 0 && t.i == 0x403) = true := by decide
/-- R106: with I = 0xFF0 and x = 15 the load ends at 0xFFF and leaves I = 0x1000. -/
theorem test_load_to_the_end : nextWith (run 0xFF65 { State.reset with i := 0xFF0 }) (fun t => t.i == 0x1000) = true := by
  decide

/-! ### Keys and timers (R108 to R114) -/

theorem test_skip_pressed : nextWith (run 0xE59E
    { State.reset.setReg 5 0xA with key := (Vector.replicate 16 false).set 10 true, pc := 0x220 })
    (fun t => t.pc == 0x224) = true := by decide
theorem test_skip_pressed_bounds : faultsWith (run 0xE59E (State.reset.setReg 5 16)) (.outOfBounds 16 0x200) = true := by
  decide
theorem test_skip_not_pressed : nextWith (run 0xE5A1 { State.reset.setReg 5 0xA with pc := 0x220 })
    (fun t => t.pc == 0x224) = true := by decide
theorem test_wait_takes_lowest : nextWith (run 0xF10A { State.reset with key := keys3and9, pc := 0x206 })
    (fun t => t.reg 1 == 3 && t.pc == 0x208) = true := by decide
theorem test_wait_stays : nextWith (run 0xF10A { State.reset with dt := 5 })
    (fun t => t.pc == 0x200 && t.dt == 4) = true := by decide
theorem test_read_delay : nextWith (run 0xF107 { State.reset with dt := 2 })
    (fun t => t.reg 1 == 2 && t.dt == 1) = true := by decide
theorem test_set_delay : nextWith (run 0xF015 (State.reset.setReg 0 3)) (fun t => t.dt == 2) = true := by decide
theorem test_set_sound : nextWith (run 0xF218 (State.reset.setReg 2 3)) (fun t => t.st == 2 && t.audio) = true := by decide
/-- R68: under PerActivation a running timer gives no notification. -/
theorem test_sound_activation : nextWith (run 0x1200 { activationEngine with st := 3 })
    (fun t => t.st == 2 && !t.audio) = true := by decide

/-! ### Fetch, reset and the host (R36, R60, R63, R137, R145) -/

theorem test_fetch_odd : nextWith (run 0x1234 { State.reset with pc := 0x201 }) (fun t => t.pc == 0x234) = true := by decide
theorem test_empty_memory_faults : faultsWith (step State.reset) (.unsupportedOpcode 0 0x200) = true := by decide
theorem test_font_bytes : State.reset.mem.read 0x050 = 0xF0 ∧ State.reset.mem.read 0x09F = 0x80 ∧
    State.reset.mem.read 0x0A0 = 0 := by decide
theorem test_load_image : State.reset.load [0x12, 0x00] =
    .ok { State.reset with mem := [(0x200, 0x12)] } := by decide
theorem test_designated_stop : runToStop [State.reset.key] (State.reset.withFetchWord 16 0x1200) =
    .stopped (State.reset.withFetchWord 16 0x1200) := by decide

/-! ### Witnesses: encoding -/

/-- The one instruction with a condition, under the parameter that admits it. -/
theorem witness_DecodeOfEncode : (Instr.op8xyE 15 15).wf allRowsParams = true := by decide
theorem witness_EncodeOfDecode : decodeWord defaultParams 0xFF65 = some (.opFx65 15) := by decide
/-- A decoded word; an undecoded word that a row covers; a row and a word it covers. -/
theorem witness_DecodeIsTheMatchingRow :
    decodeWord defaultParams 0x8124 = some (.op8xy4 1 2) ∧
    (decodeWord defaultParams 0x820E = none ∧ ⟨0x800E, 0xF00F⟩ ∈ opcodeMap ∧
      (⟨0x800E, 0xF00F⟩ : OpcodeRow).covers 0x820E = true) ∧
    (∃ r ∈ opcodeMap, r.covers 0x00E0 = true) ∧ defaultParams.shl = pushingEngine.params.shl := by decide
theorem witness_UnsupportedWords : fetchWord State.reset = .ok 0 ∧ decodeWord State.reset.params 0 = none := by decide

/-! ### Witnesses: the cycle -/

theorem witness_FetchIsBigEndianAndBounded :
    ({ State.reset with pc := 0xFFE } : State).pc.toNat ≤ 0xFFE ∧
    ({ State.reset with pc := 0xFFF } : State).pc.toNat = 0xFFF ∧
    0xFFF < ({ State.reset with pc := 0x1000 } : State).pc.toNat := by decide
/-- An instruction that faults, one that goes on, and a word that does not decode, at the last PC that can be fetched
from; and both values of P_AUDIO. -/
theorem witness_StepRunsTheDecodedInstruction :
    let s := { State.reset with pc := 0xFFE }
    (fetchWord (s.withFetchWord 16 0x00EE) = .ok 0x00EE ∧
      decodeWord s.params 0x00EE = some .op00EE ∧ exec .op00EE s = .fault (.stackUnderflow 0xFFE)) ∧
    (fetchWord (s.withFetchWord 16 0x1200) = .ok 0x1200 ∧
      decodeWord s.params 0x1200 = some (.op1nnn 0x200) ∧ ∃ t, exec (.op1nnn 0x200) s = .next t) ∧
    (fetchWord s = .ok 0 ∧ decodeWord s.params 0 = none) ∧
    State.reset.params.audio = .perActiveCycle ∧ activationEngine.params.audio = .perActivation :=
  ⟨⟨by decide, by decide, rfl⟩, ⟨by decide, by decide, ⟨_, rfl⟩⟩, by decide, rfl, rfl⟩
/-- Fx15 and Fx18 with a nonzero register, so that the timers the tick sees are the new ones. -/
theorem witness_TimersTickOncePerStep :
    let s := (State.reset.setReg 1 255).withFetchWord 16 0xF115
    fetchWord s = .ok 0xF115 ∧ decodeWord s.params 0xF115 = some (.opFx15 1) ∧ ∃ t, step s = .next t :=
  ⟨by decide, by decide, next_of_check (by decide)⟩
theorem witness_AudioBitOfAStep :
    let s := (State.reset.setReg 1 1).withFetchWord 16 0xF118
    let u := (activationEngine.setReg 1 1).withFetchWord 16 0xF118
    (fetchWord s = .ok 0xF118 ∧ decodeWord s.params 0xF118 = some (.opFx18 1) ∧ (∃ t, step s = .next t) ∧
      s.params.audio = .perActiveCycle) ∧
    (fetchWord u = .ok 0xF118 ∧ decodeWord u.params 0xF118 = some (.opFx18 1) ∧ (∃ t, step u = .next t) ∧
      u.params.audio = .perActivation) :=
  ⟨⟨by decide, by decide, next_of_check (by decide), rfl⟩, ⟨by decide, by decide, next_of_check (by decide), rfl⟩⟩
/-- Each kind of fault at its boundary, and the instruction just inside it. -/
theorem witness_ExecFaultsExactlyWhereItsRuleSays :
    faultIn .op00EE State.reset = some (.stackUnderflow 0x200) ∧
    faultIn .op00EE { State.reset with sp := 1 } = none ∧
    faultIn (.op2nnn 0) { State.reset with sp := 16 } = some (.stackOverflow 0x200) ∧
    faultIn (.op2nnn 0) { State.reset with sp := 15 } = none ∧
    faultIn (.opBnnn 0) { pushingEngine with sp := 16 } = some (.stackOverflow 0x200) ∧
    faultIn (.opBnnn 0) { State.reset with sp := 16 } = none ∧
    faultIn (.op8xyE 1 2) State.reset = some (.unsupportedOpcode 0x812E 0x200) ∧
    faultIn (.op8xyE 1 2) shiftLeftEngine = none ∧
    faultIn (.opDxyn 0 0 1) { State.reset with i := 0x1000 } = some (.outOfBounds 0x1000 0x200) ∧
    faultIn (.opDxyn 0 0 0) { State.reset with i := 0x1000 } = none ∧
    faultIn (.opFx33 0) { State.reset with i := 0xFFE } = some (.outOfBounds 0x1000 0x200) ∧
    faultIn (.opFx33 0) { State.reset with i := 0xFFD } = none ∧
    faultIn (.opFx55 15) { State.reset with i := 0xFFFF } = some (.outOfBounds 0xFFFF 0x200) ∧
    faultIn (.opFx65 15) { State.reset with i := 0xFF0 } = none ∧
    faultIn (.opEx9E 0) (State.reset.setReg 0 16) = some (.outOfBounds 16 0x200) ∧
    faultIn (.opExA1 0) (State.reset.setReg 0 15) = none := by decide
/-- Every kind of PC update answers a next state. -/
theorem witness_ProgramCounterUpdates :
    (∃ t, exec (.op1nnn 0xFFF) State.reset = .next t) ∧ (∃ t, exec (.op2nnn 0xFFF) State.reset = .next t) ∧
    (∃ t, exec (.opBnnn 0xFFF) State.reset = .next t) ∧
    (∃ t, exec .op00EE { State.reset with sp := 16 } = .next t) ∧
    (∃ t, exec (.op3xnn 0 0) State.reset = .next t) ∧ (∃ t, exec (.op4xnn 0 0) State.reset = .next t) ∧
    (∃ t, exec (.op5xy0 0 1) State.reset = .next t) ∧ (∃ t, exec (.op9xy0 0 1) State.reset = .next t) ∧
    (∃ t, exec (.opEx9E 0) (State.reset.setReg 0 15) = .next t) ∧
    (∃ t, exec (.opExA1 0) (State.reset.setReg 0 15) = .next t) ∧
    (∃ t, exec (.opFx0A 0) State.reset = .next t) ∧
    (∃ t, exec (.opFx0A 0) { State.reset with key := keys3and9 } = .next t) ∧
    (∃ t, exec .op00E0 State.reset = .next t) := by
  refine ⟨⟨_, rfl⟩, ⟨_, rfl⟩, ⟨_, rfl⟩, ?_, ⟨_, rfl⟩, ⟨_, rfl⟩, ⟨_, rfl⟩, ⟨_, rfl⟩, ?_, ?_, ?_, ?_, ⟨_, rfl⟩⟩ <;>
    exact next_of_check (by decide)
/-- A storing form (16 bytes up to the last address) and one that stores nothing, each with an address outside. -/
theorem witness_MemoryUnchangedOutsideStores :
    let s := { State.reset with i := 0xFF0 }
    (∃ t, exec (.opFx55 15) s = .next t) ∧ (∀ k, k < storeCount (.opFx55 15) → 0xFEF ≠ s.indexAddr k) ∧
    (∃ t, exec (.opFx65 15) s = .next t) ∧ ∀ k, k < storeCount (.opFx65 15) → 0xFF0 ≠ s.indexAddr k :=
  ⟨next_of_check (by decide), by decide, next_of_check (by decide), by decide⟩
theorem witness_RegistersUnchangedUnlessWritten :
    (∃ t, exec (.opFx65 14) State.reset = .next t) ∧ mayWriteReg (.opFx65 14) 15 = false :=
  ⟨next_of_check (by decide), by decide⟩
theorem witness_SpecialRegistersUnchangedUnlessWritten :
    (∃ t, exec (.opFx15 0) State.reset = .next t) ∧ mayWriteI (.opFx15 0) = false ∧ drawsOnScreen (.opFx15 0) = false ∧
    (∀ x nn, Instr.opFx15 0 ≠ .opCxnn x nn) ∧
    (∃ t, exec (.opDxyn 0 0 0) State.reset = .next t) ∧ drawsOnScreen (.opDxyn 0 0 0) = true :=
  ⟨⟨_, rfl⟩, rfl, rfl, (fun _ _ h => by cases h), next_of_check (by decide), rfl⟩
/-- A call at the last free entry, a computed jump that pushes, a return, and a jump that does none of these. -/
theorem witness_CallStackUnchangedUnlessPushedOrPopped :
    ((∃ t, exec (.op2nnn 0) { State.reset with sp := 15 } = .next t) ∧ pushesIn defaultParams (.op2nnn 0) = true) ∧
    ((∃ t, exec (.opBnnn 0) pushingEngine = .next t) ∧ pushesIn pushingEngine.params (.opBnnn 0) = true) ∧
    ((∃ t, exec .op00EE { State.reset with sp := 1 } = .next t) ∧ pushesIn defaultParams .op00EE = false) ∧
    ((∃ t, exec (.op1nnn 0) State.reset = .next t) ∧ pushesIn defaultParams (.op1nnn 0) = false ∧
      Instr.op1nnn 0 ≠ .op00EE) :=
  ⟨⟨next_of_check (by decide), rfl⟩, ⟨next_of_check (by decide), rfl⟩, ⟨next_of_check (by decide), rfl⟩,
    ⟨⟨_, rfl⟩, rfl, by decide⟩⟩
theorem witness_StepKeepsKeysAndParameters :
    ∃ t, step ({ State.reset with key := keys3and9 }.withFetchWord 16 0xF10A) = .next t := next_of_check (by decide)

/-! ### Witnesses: the invariant and the invisible state -/

/-- A state at the boundary of each clause whose step goes on: PC 0xFFE, a stack entry 0xFFE, listed memory. -/
def edgeState : State :=
  { State.reset with pc := 0xFFE, sp := 1, stack := (Vector.replicate 16 0).set 0 0xFFE }.withFetchWord 16 0x00EE

theorem edgeState_inv : edgeState.Inv := ⟨by decide, by decide, by decide⟩
theorem witness_StepKeepsTheInvariant : edgeState.Inv ∧ ∃ t, step edgeState = .next t :=
  ⟨edgeState_inv, next_of_check (by decide)⟩
/-- A load, a step, and a step that faults. -/
theorem witness_HostActionsKeepTheInvariant :
    edgeState.Inv ∧ ((Session.mk edgeState .loading).act (.load [1])).isSome = true ∧
    ((Session.mk edgeState .stepping).act .step).isSome = true ∧
    ((Session.mk { edgeState with sp := 0 } .stepping).act .step).isSome = true :=
  ⟨edgeState_inv, by decide, by decide, by decide⟩
/-- Two different states that agree up to the outputs. -/
theorem witness_OutputsAreInvisibleToPrograms :
    edgeState.hideOutputs = { edgeState with st := 255, redraw := true, audio := true }.hideOutputs := rfl
/-- Two different states that agree below SP. -/
theorem witness_StackAboveSPIsInvisible :
    edgeState.SameBelowSP { edgeState with stack := edgeState.stack.set 1 0x123 } := ⟨rfl, by decide⟩

/-! ### Witnesses: instructions -/

/-- Inside the memory by one byte, n = 0 past it, and outside it; and both answers about the collision. -/
theorem witness_DrawSprite :
    let s := { State.reset with i := 0xFF1, fb := Framebuffer.clear.set 0 (Vector.replicate 64 true) }
    s.i.toNat + (15 : Fin 16).val ≤ 0x1000 ∧ 0x1000 < s.i.toNat + 1 + (15 : Fin 16).val ∧ (0 : Fin 16).val = 0 ∧
    (∃ r c, s.fb[r.val][c.val] = true ∧ spriteBit s.mem 0x050 0 0 1 r c = true) ∧
    (∀ (r : Fin 32) (c : Fin 64), Framebuffer.clear[r.val][c.val] = true → spriteBit s.mem s.i.toNat 0 0 15 r c = false) :=
  ⟨by decide, by decide, rfl, ⟨0, 0, by decide, by decide⟩, fun r c h => by simp [Framebuffer.clear] at h⟩
theorem witness_DrawingTwiceRestoresTheScreen :
    let s := { State.reset with i := 0x050 }
    (0 : Reg) ≠ 15 ∧ s.fb = Framebuffer.clear ∧
    ∃ t, exec (.opDxyn 0 0 5) s = .next t ∧ ∃ u, exec (.opDxyn 0 0 5) t = .next u :=
  ⟨by decide, rfl, ⟨_, rfl, ⟨_, rfl⟩⟩⟩
theorem witness_ReturnFromSubroutine :
    State.reset.sp.val = 0 ∧ ({ State.reset with sp := 16 } : State).sp.val = (15 : Fin 16).val + 1 := by decide
theorem witness_CallSubroutine :
    ({ State.reset with sp := 16 } : State).sp.val = 16 ∧
    ({ State.reset with sp := 15 } : State).sp.val = (15 : Fin 16).val := by decide
theorem witness_CallThenReturn : ∃ t, exec (.op2nnn 0x210) { State.reset with sp := 15 } = .next t :=
  next_of_check (by decide)
theorem witness_ComputedJump :
    State.reset.params.bnnn = .jump ∧ pushingEngine.params.bnnn = .pushThenJump ∧
    ({ pushingEngine with sp := 16 } : State).sp.val = 16 ∧
    ({ pushingEngine with sp := 15 } : State).sp.val = (15 : Fin 16).val := by decide
theorem witness_FlagWriteOrdersAgreeAwayFromVF :
    let s := shiftLeftEngine.setReg 2 0x81
    let s' := { s with params := { s.params with vfOrder := .sequential } }
    (2 : Reg) ≠ 15 ∧ (∃ t, exec (.op8xyE 2 2) s = .next t) ∧ (∃ t, exec (.op8xyE 2 2) s' = .next t) ∧
    (∃ t, exec (.op8xy4 2 2) s = .next t) ∧ ∃ t, exec (.op8xy4 2 2) s' = .next t :=
  ⟨by decide, ⟨_, rfl⟩, ⟨_, rfl⟩, ⟨_, rfl⟩, ⟨_, rfl⟩⟩
theorem witness_ShiftBothWays :
    (0x812E : Word) &&& 0xF00F = 0x800E ∧ shiftLeftEngine.params.shl = .shiftLeft ∧
    State.reset.params.shl = .unsupported := by decide
theorem witness_StoreDecimalDigits :
    let s := { State.reset with i := 0xFFD }
    s.mem.wf ∧ s.i.toNat + 2 ≤ 0xFFF ∧ 0xFFF < ({ s with i := 0xFFE } : State).i.toNat + 2 := by decide
theorem witness_StoreRegisters :
    let s := { State.reset with i := 0xFF0 }
    s.mem.wf ∧ s.i.toNat + (15 : Reg).val ≤ 0xFFF ∧
    0xFFF < ({ s with i := 0xFF1 } : State).i.toNat + (15 : Reg).val := by decide
theorem witness_LoadRegistersAndAdvance :
    ({ State.reset with i := 0xFFF } : State).i.toNat + (0 : Reg).val ≤ 0xFFF ∧
    0xFFF < ({ State.reset with i := 0x1000 } : State).i.toNat + (0 : Reg).val := by decide
theorem witness_StoreThenLoadRoundTrip :
    let s := { State.reset with i := 0xFF0 }
    s.mem.wf ∧ s.i.toNat + (15 : Reg).val ≤ 0xFFF := by decide
theorem witness_SkipOnKey :
    ((State.reset.setReg 5 15).reg 5).toNat = (15 : Fin 16).val ∧ 15 < ((State.reset.setReg 5 16).reg 5).toNat := by
  decide
/-- No key pressed; and key 3, with key 9 above it. -/
theorem witness_WaitForKey :
    (∀ k : Fin 16, State.reset.key[k.val] = false) ∧
    keys3and9[(3 : Fin 16).val] = true ∧ ∀ j : Fin 16, j < 3 → keys3and9[j.val] = false := by decide
theorem witness_KeyWaitOnlyTicksTimers :
    let s := { State.reset with dt := 1, st := 1 }.withFetchWord 16 0xF10A
    fetchWord s = .ok 0xF10A ∧ decodeWord s.params 0xF10A = some (.opFx0A 1) ∧
    ∀ k : Fin 16, s.key[k.val] = false := by decide
theorem witness_DelayTimerInstructions :
    let s := { State.reset with dt := 1 }
    (fetchWord (s.withFetchWord 16 0xF107) = .ok 0xF107 ∧ decodeWord s.params 0xF107 = some (.opFx07 1)) ∧
    fetchWord (s.withFetchWord 16 0xF115) = .ok 0xF115 ∧ decodeWord s.params 0xF115 = some (.opFx15 1) := by decide

/-! ### Witnesses: the host -/

/-- The largest image, and one byte more. -/
theorem witness_LoadCopiesTheImage :
    State.reset.mem.wf ∧ 0x200 + (List.replicate 3584 (0 : Byte)).length ≤ 0x1000 ∧
    0x1000 < 0x200 + (List.replicate 3585 (0 : Byte)).length :=
  ⟨by decide, by simp only [List.length_replicate]; decide, by simp only [List.length_replicate]; decide⟩
/-- A step that faults, a run that is over, and a step that was taken. -/
theorem witness_AFaultEndsTheRun :
    ((∀ g, (Session.mk State.reset .loading).phase ≠ .over g) ∧
      step State.reset = .fault (.unsupportedOpcode 0 0x200)) ∧
    (Session.mk State.reset (.over (.stackUnderflow 0x200))).phase = .over (.stackUnderflow 0x200) ∧
    ((Session.mk edgeState .loading).act .step).isSome = true :=
  ⟨⟨(fun _ h => by cases h), fault_of_check (by decide)⟩, rfl, by decide⟩
/-- A jump to itself at the first and at the last address that holds one. -/
theorem witness_DesignatedStopLoops :
    ({ State.reset with pc := 0 }.withFetchWord 16 0x1000).atDesignatedStop = true ∧
    ({ State.reset with pc := 0xFFE }.withFetchWord 16 0x1FFE).atDesignatedStop = true := by decide
/-- 6000 at 0x200 and a jump to itself at 0x202: the run starts at no stop, its first step succeeds, its second state is
the first stop; with no keys it is unfinished, and an empty memory faults at once. -/
theorem witness_RunEndsWhereItSays :
    let s := { State.reset with mem := Memory.store [] 0x200 [0x60, 0x00, 0x12, 0x02] }
    let t := { s with pc := 0x202, key := keys3and9 }
    s.atDesignatedStop = false ∧ step (s.setKeys keys3and9) = .next t ∧ t.atDesignatedStop = true ∧
    runToStop [keys3and9] s = .stopped t ∧ stateAfter [keys3and9] s = some t ∧
    runToStop [] s = .unfinished s ∧ step (State.reset.setKeys keys3and9) = .fault (.unsupportedOpcode 0 0x200) ∧
    runToStop [keys3and9] State.reset = .faulted (.unsupportedOpcode 0 0x200) { State.reset with key := keys3and9 } :=
  ⟨by decide, by rfl, by decide, by decide, by decide, by decide, by rfl, by decide⟩

end Sys2Proof.Tests
end

section
/-! Decoding against the encoder and the opcode map (30_encoding.md R50 to R58): a word that decodes is the encoding of
what it decodes to, and each row of the map decodes exactly the words it covers. -/

namespace Sys2Proof

open Machine

/-! ### A word that decodes is the encoding of what it decodes to -/

theorem encNNN_fields {w : Word} {f : Nat} (hF : fieldF w = f) : encNNN f (fieldNNN w) = w := by
  apply BitVec.eq_of_toNat_eq
  rw [encNNN_toNat (hF ▸ fieldF_lt w), fieldNNN_toNat, ← hF, fieldF_eq]
  omega

/-- Formats XNN and XK: the low byte as a number. -/
theorem encXNN_fields {w : Word} {f : Nat} (hF : fieldF w = f) : encXNN f (fieldX w) (bitField w 0 8) = w := by
  have hn : bitField w 0 8 = w.toNat % 256 := by simp [bitField]
  apply BitVec.eq_of_toNat_eq
  rw [encXNN_toNat (hF ▸ fieldF_lt w) (by omega), fieldX_val, hn, ← hF, fieldF_eq]
  omega

/-- Formats XY and XYN: the low nibble as a number. -/
theorem encXYN_fields {w : Word} {f : Nat} (hF : fieldF w = f) :
    encXYN f (fieldX w) (fieldY w) (bitField w 0 4) = w := by
  have hn : bitField w 0 4 = w.toNat % 16 := by simp [bitField]
  apply BitVec.eq_of_toNat_eq
  rw [encXYN_toNat (hF ▸ fieldF_lt w) (by omega), fieldX_val, fieldY_val, hn, ← hF, fieldF_eq]
  omega

theorem fieldNN_toNat_eq_bitField (w : Word) : (fieldNN w).toNat = bitField w 0 8 := by
  simp [fieldNN_toNat, bitField]

theorem fieldN_val_eq_bitField (w : Word) : (fieldN w).val = bitField w 0 4 := by
  simp [fieldN_val, bitField]

theorem encode_of_decodeFamily0 {w : Word} {i : Instr} (h : decodeFamily0 w = some i) : encode i = w := by
  unfold decodeFamily0 at h
  split at h
  · next hw => cases h; exact hw.symm
  · split at h
    · next hw => cases h; exact hw.symm
    · cases h

theorem encode_of_decodeFamily8 {p : Params} {x y : Reg} {n : Nat} {i : Instr} (h : decodeFamily8 p x y n = some i) :
    encode i = encXYN 0x8 x y n := by
  unfold decodeFamily8 at h
  split at h
  case h_9 =>
    split at h
    · cases h; rfl
    · cases h
  all_goals cases h
  all_goals rfl

theorem encode_of_decodeFamilyE {x : Reg} {n : Nat} {i : Instr} (h : decodeFamilyE x n = some i) :
    encode i = encXNN 0xE x n := by
  unfold decodeFamilyE at h
  split at h <;> cases h <;> rfl

theorem encode_of_decodeFamilyF {x : Reg} {n : Nat} {i : Instr} (h : decodeFamilyF x n = some i) :
    encode i = encXNN 0xF x n := by
  unfold decodeFamilyF at h
  split at h <;> cases h <;> rfl

/-- The decoder's dispatch, family by family: each branch rebuilds the word from its fields. -/
theorem encode_of_decodeWord {p : Params} {w : Word} {i : Instr} (h : decodeWord p w = some i) : encode i = w := by
  have hNN := fieldNN_toNat_eq_bitField w
  have hN := fieldN_val_eq_bitField w
  unfold decodeWord at h
  split at h
  · exact encode_of_decodeFamily0 h
  · next hF => cases h; exact encNNN_fields hF
  · next hF => cases h; exact encNNN_fields hF
  · next hF => cases h; rw [encode, hNN, encXNN_fields hF]
  · next hF => cases h; rw [encode, hNN, encXNN_fields hF]
  · next hF =>
    split at h
    · next h0 => cases h; rw [encode, ← h0, encXYN_fields hF]
    · cases h
  · next hF => cases h; rw [encode, hNN, encXNN_fields hF]
  · next hF => cases h; rw [encode, hNN, encXNN_fields hF]
  · next hF => rw [encode_of_decodeFamily8 h, encXYN_fields hF]
  · next hF =>
    split at h
    · next h0 => cases h; rw [encode, ← h0, encXYN_fields hF]
    · cases h
  · next hF => cases h; exact encNNN_fields hF
  · next hF => cases h; exact encNNN_fields hF
  · next hF => cases h; rw [encode, hNN, encXNN_fields hF]
  · next hF => cases h; rw [encode, hN, encXYN_fields hF]
  · next hF => rw [encode_of_decodeFamilyE h, encXNN_fields hF]
  · next hF => rw [encode_of_decodeFamilyF h, encXNN_fields hF]
  · cases h

/-! ### The row of what a word decodes to -/

theorem encodesRow : ∀ i : Instr, Laws.EncodesRow.Statement i
  | .op00E0 => Laws.EncodesRow.op00E0
  | .op00EE => Laws.EncodesRow.op00EE
  | .op1nnn nnn => Laws.EncodesRow.op1nnn nnn
  | .op2nnn nnn => Laws.EncodesRow.op2nnn nnn
  | .op3xnn x nn => Laws.EncodesRow.op3xnn x nn
  | .op4xnn x nn => Laws.EncodesRow.op4xnn x nn
  | .op5xy0 x y => Laws.EncodesRow.op5xy0 x y
  | .op6xnn x nn => Laws.EncodesRow.op6xnn x nn
  | .op7xnn x nn => Laws.EncodesRow.op7xnn x nn
  | .op8xy0 x y => Laws.EncodesRow.op8xy0 x y
  | .op8xy1 x y => Laws.EncodesRow.op8xy1 x y
  | .op8xy2 x y => Laws.EncodesRow.op8xy2 x y
  | .op8xy3 x y => Laws.EncodesRow.op8xy3 x y
  | .op8xy4 x y => Laws.EncodesRow.op8xy4 x y
  | .op8xy5 x y => Laws.EncodesRow.op8xy5 x y
  | .op8xy6 x y => Laws.EncodesRow.op8xy6 x y
  | .op8xy7 x y => Laws.EncodesRow.op8xy7 x y
  | .op8xyE x y => Laws.EncodesRow.op8xyE x y
  | .op9xy0 x y => Laws.EncodesRow.op9xy0 x y
  | .opAnnn nnn => Laws.EncodesRow.opAnnn nnn
  | .opBnnn nnn => Laws.EncodesRow.opBnnn nnn
  | .opCxnn x nn => Laws.EncodesRow.opCxnn x nn
  | .opDxyn x y n => Laws.EncodesRow.opDxyn x y n
  | .opEx9E x => Laws.EncodesRow.opEx9E x
  | .opExA1 x => Laws.EncodesRow.opExA1 x
  | .opFx07 x => Laws.EncodesRow.opFx07 x
  | .opFx0A x => Laws.EncodesRow.opFx0A x
  | .opFx15 x => Laws.EncodesRow.opFx15 x
  | .opFx18 x => Laws.EncodesRow.opFx18 x
  | .opFx1E x => Laws.EncodesRow.opFx1E x
  | .opFx29 x => Laws.EncodesRow.opFx29 x
  | .opFx33 x => Laws.EncodesRow.opFx33 x
  | .opFx55 x => Laws.EncodesRow.opFx55 x
  | .opFx65 x => Laws.EncodesRow.opFx65 x

/-- R56: the row of what a word decodes to covers the word. -/
theorem covers_of_decodeWord {p : Params} {w : Word} {i : Instr} (h : decodeWord p w = some i) :
    i.row.covers w = true := by
  have hcov := (encodesRow i).1
  rwa [encode_of_decodeWord h] at hcov

/-- What is left to show of a row: that the words it covers decode to an instruction of that row. The other direction is
`covers_of_decodeWord`. -/
theorem decodesAs_of_row {pattern mask : Word} {i : Word → Instr} (hrow : ∀ w, (i w).row = ⟨pattern, mask⟩)
    (hdec : ∀ p w, w &&& mask = pattern → decodeWord p w = some (i w)) : DecodesAs pattern mask i := by
  intro p w
  refine ⟨fun h => ?_, hdec p w⟩
  have hcov := covers_of_decodeWord h
  rwa [hrow, OpcodeRow.covers, beq_iff_eq] at hcov

/-! ### Each row decodes the words it covers -/

theorem fieldF_of_mask_F000 {w q : Word} (h : w &&& 0xF000 = q) : fieldF w = q.toNat / 4096 := by
  rw [mask_F000] at h
  rw [fieldF_eq]
  omega

theorem fields_of_mask_F00F {w q : Word} (h : w &&& 0xF00F = q) :
    fieldF w = q.toNat / 4096 ∧ bitField w 0 4 = q.toNat % 4096 := by
  rw [mask_F00F] at h
  simp only [fieldF_eq, bitField]
  omega

theorem fields_of_mask_F0FF {w q : Word} (h : w &&& 0xF0FF = q) :
    fieldF w = q.toNat / 4096 ∧ bitField w 0 8 = q.toNat % 4096 := by
  rw [mask_F0FF] at h
  simp only [fieldF_eq, bitField]
  omega

theorem decodesAs_op00E0 : DecodesAs 0x00E0 0xFFFF fun _ => .op00E0 :=
  decodesAs_of_row (fun _ => rfl) fun _ _ h => by rw [(mask_FFFF ..).1 h]; rfl

theorem decodesAs_op00EE : DecodesAs 0x00EE 0xFFFF fun _ => .op00EE :=
  decodesAs_of_row (fun _ => rfl) fun _ _ h => by rw [(mask_FFFF ..).1 h]; rfl

theorem decodesAs_op1nnn : DecodesAs 0x1000 0xF000 fun w => .op1nnn (fieldNNN w) :=
  decodesAs_of_row (fun _ => rfl) fun _ _ h => by simp [decodeWord, fieldF_of_mask_F000 h]

theorem decodesAs_op2nnn : DecodesAs 0x2000 0xF000 fun w => .op2nnn (fieldNNN w) :=
  decodesAs_of_row (fun _ => rfl) fun _ _ h => by simp [decodeWord, fieldF_of_mask_F000 h]

theorem decodesAs_op3xnn : DecodesAs 0x3000 0xF000 fun w => .op3xnn (fieldX w) (fieldNN w) :=
  decodesAs_of_row (fun _ => rfl) fun _ _ h => by simp [decodeWord, fieldF_of_mask_F000 h]

theorem decodesAs_op4xnn : DecodesAs 0x4000 0xF000 fun w => .op4xnn (fieldX w) (fieldNN w) :=
  decodesAs_of_row (fun _ => rfl) fun _ _ h => by simp [decodeWord, fieldF_of_mask_F000 h]

theorem decodesAs_op5xy0 : DecodesAs 0x5000 0xF00F fun w => .op5xy0 (fieldX w) (fieldY w) :=
  decodesAs_of_row (fun _ => rfl) fun _ _ h => by simp [decodeWord, fields_of_mask_F00F h]

theorem decodesAs_op6xnn : DecodesAs 0x6000 0xF000 fun w => .op6xnn (fieldX w) (fieldNN w) :=
  decodesAs_of_row (fun _ => rfl) fun _ _ h => by simp [decodeWord, fieldF_of_mask_F000 h]

theorem decodesAs_op7xnn : DecodesAs 0x7000 0xF000 fun w => .op7xnn (fieldX w) (fieldNN w) :=
  decodesAs_of_row (fun _ => rfl) fun _ _ h => by simp [decodeWord, fieldF_of_mask_F000 h]

theorem decodesAs_op8xy0 : DecodesAs 0x8000 0xF00F fun w => .op8xy0 (fieldX w) (fieldY w) :=
  decodesAs_of_row (fun _ => rfl) fun _ _ h => by simp [decodeWord, decodeFamily8, fields_of_mask_F00F h]

theorem decodesAs_op8xy1 : DecodesAs 0x8001 0xF00F fun w => .op8xy1 (fieldX w) (fieldY w) :=
  decodesAs_of_row (fun _ => rfl) fun _ _ h => by simp [decodeWord, decodeFamily8, fields_of_mask_F00F h]

theorem decodesAs_op8xy2 : DecodesAs 0x8002 0xF00F fun w => .op8xy2 (fieldX w) (fieldY w) :=
  decodesAs_of_row (fun _ => rfl) fun _ _ h => by simp [decodeWord, decodeFamily8, fields_of_mask_F00F h]

theorem decodesAs_op8xy3 : DecodesAs 0x8003 0xF00F fun w => .op8xy3 (fieldX w) (fieldY w) :=
  decodesAs_of_row (fun _ => rfl) fun _ _ h => by simp [decodeWord, decodeFamily8, fields_of_mask_F00F h]

theorem decodesAs_op8xy4 : DecodesAs 0x8004 0xF00F fun w => .op8xy4 (fieldX w) (fieldY w) :=
  decodesAs_of_row (fun _ => rfl) fun _ _ h => by simp [decodeWord, decodeFamily8, fields_of_mask_F00F h]

theorem decodesAs_op8xy5 : DecodesAs 0x8005 0xF00F fun w => .op8xy5 (fieldX w) (fieldY w) :=
  decodesAs_of_row (fun _ => rfl) fun _ _ h => by simp [decodeWord, decodeFamily8, fields_of_mask_F00F h]

theorem decodesAs_op8xy6 : DecodesAs 0x8006 0xF00F fun w => .op8xy6 (fieldX w) (fieldY w) :=
  decodesAs_of_row (fun _ => rfl) fun _ _ h => by simp [decodeWord, decodeFamily8, fields_of_mask_F00F h]

theorem decodesAs_op8xy7 : DecodesAs 0x8007 0xF00F fun w => .op8xy7 (fieldX w) (fieldY w) :=
  decodesAs_of_row (fun _ => rfl) fun _ _ h => by simp [decodeWord, decodeFamily8, fields_of_mask_F00F h]

theorem decodesAs_op9xy0 : DecodesAs 0x9000 0xF00F fun w => .op9xy0 (fieldX w) (fieldY w) :=
  decodesAs_of_row (fun _ => rfl) fun _ _ h => by simp [decodeWord, fields_of_mask_F00F h]

theorem decodesAs_opAnnn : DecodesAs 0xA000 0xF000 fun w => .opAnnn (fieldNNN w) :=
  decodesAs_of_row (fun _ => rfl) fun _ _ h => by simp [decodeWord, fieldF_of_mask_F000 h]

theorem decodesAs_opBnnn : DecodesAs 0xB000 0xF000 fun w => .opBnnn (fieldNNN w) :=
  decodesAs_of_row (fun _ => rfl) fun _ _ h => by simp [decodeWord, fieldF_of_mask_F000 h]

theorem decodesAs_opCxnn : DecodesAs 0xC000 0xF000 fun w => .opCxnn (fieldX w) (fieldNN w) :=
  decodesAs_of_row (fun _ => rfl) fun _ _ h => by simp [decodeWord, fieldF_of_mask_F000 h]

theorem decodesAs_opDxyn : DecodesAs 0xD000 0xF000 fun w => .opDxyn (fieldX w) (fieldY w) (fieldN w) :=
  decodesAs_of_row (fun _ => rfl) fun _ _ h => by simp [decodeWord, fieldF_of_mask_F000 h]

theorem decodesAs_opEx9E : DecodesAs 0xE09E 0xF0FF fun w => .opEx9E (fieldX w) :=
  decodesAs_of_row (fun _ => rfl) fun _ _ h => by simp [decodeWord, decodeFamilyE, fields_of_mask_F0FF h]

theorem decodesAs_opExA1 : DecodesAs 0xE0A1 0xF0FF fun w => .opExA1 (fieldX w) :=
  decodesAs_of_row (fun _ => rfl) fun _ _ h => by simp [decodeWord, decodeFamilyE, fields_of_mask_F0FF h]

theorem decodesAs_opFx07 : DecodesAs 0xF007 0xF0FF fun w => .opFx07 (fieldX w) :=
  decodesAs_of_row (fun _ => rfl) fun _ _ h => by simp [decodeWord, decodeFamilyF, fields_of_mask_F0FF h]

theorem decodesAs_opFx0A : DecodesAs 0xF00A 0xF0FF fun w => .opFx0A (fieldX w) :=
  decodesAs_of_row (fun _ => rfl) fun _ _ h => by simp [decodeWord, decodeFamilyF, fields_of_mask_F0FF h]

theorem decodesAs_opFx15 : DecodesAs 0xF015 0xF0FF fun w => .opFx15 (fieldX w) :=
  decodesAs_of_row (fun _ => rfl) fun _ _ h => by simp [decodeWord, decodeFamilyF, fields_of_mask_F0FF h]

theorem decodesAs_opFx18 : DecodesAs 0xF018 0xF0FF fun w => .opFx18 (fieldX w) :=
  decodesAs_of_row (fun _ => rfl) fun _ _ h => by simp [decodeWord, decodeFamilyF, fields_of_mask_F0FF h]

theorem decodesAs_opFx1E : DecodesAs 0xF01E 0xF0FF fun w => .opFx1E (fieldX w) :=
  decodesAs_of_row (fun _ => rfl) fun _ _ h => by simp [decodeWord, decodeFamilyF, fields_of_mask_F0FF h]

theorem decodesAs_opFx29 : DecodesAs 0xF029 0xF0FF fun w => .opFx29 (fieldX w) :=
  decodesAs_of_row (fun _ => rfl) fun _ _ h => by simp [decodeWord, decodeFamilyF, fields_of_mask_F0FF h]

theorem decodesAs_opFx33 : DecodesAs 0xF033 0xF0FF fun w => .opFx33 (fieldX w) :=
  decodesAs_of_row (fun _ => rfl) fun _ _ h => by simp [decodeWord, decodeFamilyF, fields_of_mask_F0FF h]

theorem decodesAs_opFx55 : DecodesAs 0xF055 0xF0FF fun w => .opFx55 (fieldX w) :=
  decodesAs_of_row (fun _ => rfl) fun _ _ h => by simp [decodeWord, decodeFamilyF, fields_of_mask_F0FF h]

theorem decodesAs_opFx65 : DecodesAs 0xF065 0xF0FF fun w => .opFx65 (fieldX w) :=
  decodesAs_of_row (fun _ => rfl) fun _ _ h => by simp [decodeWord, decodeFamilyF, fields_of_mask_F0FF h]

/-- R58, R96: the row of 8xyE is the one whose decoding depends on a parameter. -/
theorem decodeWord_of_covers_8xyE (p : Params) {w : Word} (h : w &&& 0xF00F = 0x800E) :
    decodeWord p w = if p.shl = .shiftLeft then some (.op8xyE (fieldX w) (fieldY w)) else none := by
  simp [decodeWord, decodeFamily8, fields_of_mask_F00F h]

theorem exists_decodesAs : ∀ r ∈ opcodeMap, r ≠ ⟨0x800E, 0xF00F⟩ → ∃ i, DecodesAs r.pattern r.mask i := by
  simp only [opcodeMap, List.cons_append, List.nil_append, List.forall_mem_cons]
  exact ⟨fun _ => ⟨_, decodesAs_op00E0⟩, fun _ => ⟨_, decodesAs_op00EE⟩, fun _ => ⟨_, decodesAs_op1nnn⟩,
    fun _ => ⟨_, decodesAs_op2nnn⟩, fun _ => ⟨_, decodesAs_op3xnn⟩, fun _ => ⟨_, decodesAs_op4xnn⟩,
    fun _ => ⟨_, decodesAs_op5xy0⟩, fun _ => ⟨_, decodesAs_op6xnn⟩, fun _ => ⟨_, decodesAs_op7xnn⟩,
    fun _ => ⟨_, decodesAs_op8xy0⟩, fun _ => ⟨_, decodesAs_op8xy1⟩, fun _ => ⟨_, decodesAs_op8xy2⟩,
    fun _ => ⟨_, decodesAs_op8xy3⟩, fun _ => ⟨_, decodesAs_op8xy4⟩, fun _ => ⟨_, decodesAs_op8xy5⟩,
    fun _ => ⟨_, decodesAs_op8xy6⟩, fun _ => ⟨_, decodesAs_op8xy7⟩, fun h => absurd rfl h,
    fun _ => ⟨_, decodesAs_op9xy0⟩, fun _ => ⟨_, decodesAs_opAnnn⟩, fun _ => ⟨_, decodesAs_opBnnn⟩,
    fun _ => ⟨_, decodesAs_opCxnn⟩, fun _ => ⟨_, decodesAs_opDxyn⟩, fun _ => ⟨_, decodesAs_opEx9E⟩,
    fun _ => ⟨_, decodesAs_opExA1⟩, fun _ => ⟨_, decodesAs_opFx07⟩, fun _ => ⟨_, decodesAs_opFx0A⟩,
    fun _ => ⟨_, decodesAs_opFx15⟩, fun _ => ⟨_, decodesAs_opFx18⟩, fun _ => ⟨_, decodesAs_opFx1E⟩,
    fun _ => ⟨_, decodesAs_opFx29⟩, fun _ => ⟨_, decodesAs_opFx33⟩, fun _ => ⟨_, decodesAs_opFx55⟩,
    fun _ => ⟨_, decodesAs_opFx65⟩, nofun⟩

/-- R56: a covered word decodes, but for 8xyE's row when P_SHL = Unsupported. -/
theorem row_eq_8xyE_of_decodeWord_none {p : Params} {w : Word} (h : decodeWord p w = none) {r : OpcodeRow}
    (hr : r ∈ opcodeMap) (hcov : r.covers w = true) : r = ⟨0x800E, 0xF00F⟩ ∧ p.shl = .unsupported := by
  have hmask : w &&& r.mask = r.pattern := beq_iff_eq.1 hcov
  by_cases hE : r = ⟨0x800E, 0xF00F⟩
  · subst hE
    rw [decodeWord_of_covers_8xyE p hmask] at h
    refine ⟨rfl, ?_⟩
    cases hshl : p.shl with
    | unsupported => rfl
    | shiftLeft => simp [hshl] at h
  · obtain ⟨i, hi⟩ := exists_decodesAs r hr hE
    rw [(hi p w).2 hmask] at h
    cases h

/-- The patterns of two different rows differ in a bit that both masks keep. -/
theorem row_eq_of_patterns_agree : ∀ r ∈ opcodeMap, ∀ r' ∈ opcodeMap,
    r.pattern &&& r'.mask = r'.pattern &&& r.mask → r = r' := by
  decide

theorem row_unique {w : Word} {r r' : OpcodeRow} (hr : r ∈ opcodeMap) (hr' : r' ∈ opcodeMap)
    (hcov : r.covers w = true) (hcov' : r'.covers w = true) : r = r' := by
  apply row_eq_of_patterns_agree r hr r' hr'
  rw [← beq_iff_eq.1 hcov, ← beq_iff_eq.1 hcov', BitVec.and_assoc, BitVec.and_assoc, BitVec.and_comm r.mask]

theorem decodeWord_congr_shl {p q : Params} (h : p.shl = q.shl) : decodeWord p = decodeWord q := by
  funext w
  simp only [decodeWord, decodeFamily8, h]

/-- R56, R57: which words decode to nothing, read off the opcode map. -/
theorem decodeWord_eq_none_iff {p : Params} {w : Word} : decodeWord p w = none ↔
    ∀ r ∈ opcodeMap, r.covers w = true → r = ⟨0x800E, 0xF00F⟩ ∧ p.shl = .unsupported := by
  refine ⟨fun h r => row_eq_8xyE_of_decodeWord_none h, fun h => Option.eq_none_iff_forall_ne_some.2 fun i hdec => ?_⟩
  have hcov := covers_of_decodeWord hdec
  obtain ⟨hrow, hshl⟩ := h i.row (encodesRow i).2 hcov
  rw [hrow] at hcov
  rw [decodeWord_of_covers_8xyE p (beq_iff_eq.1 hcov)] at hdec
  simp [hshl] at hdec

/-- Settles O3: a decoded word is the encoding of its instruction, so the instruction's row covers it; each row but
8xyE's decodes the words it covers; and the patterns of two rows differ in a bit both masks keep. -/
theorem decodeIsTheMatchingRow : Obligations.DecodeIsTheMatchingRow :=
  ⟨fun _ _ i h => ⟨(encodesRow i).2, covers_of_decodeWord h⟩, fun _ _ => decodeWord_eq_none_iff,
    fun _ _ hr _ hr' => row_unique hr hr', fun _ _ => decodeWord_congr_shl⟩

end Sys2Proof
end

section
/-! The instruction cycle (40_instruction_cycle.md R63, R65): where fetch faults, and where the execute phase of each
instruction leaves PC. The rules below say what PC is after each way an instruction can end; an instruction whose
completion has a condition has its own lemma, saying when it completes and with which state. -/

namespace Sys2Proof

open Machine

/-! ### Fetch past the end of MEM -/

theorem fetchWord_at_last {s : State} (h : s.pc.toNat = 0xFFF) : fetchWord s = .error (.outOfBounds 0x1000 s.pc) := by
  simp [fetchWord, h]

theorem fetchWord_past_end {s : State} (h : 0xFFF < s.pc.toNat) :
    fetchWord s = .error (.outOfBounds s.pc.toNat s.pc) :=
  if_pos h

/-- Settles O6: the two addresses of the word are in MEM exactly when PC is at most 0xFFE. -/
theorem fetchIsBigEndianAndBounded : Obligations.FetchIsBigEndianAndBounded :=
  fun _ => ⟨fun h => ⟨_, fetchWord_ok h, bigEndian_toNat _ _⟩, fetchWord_at_last, fetchWord_past_end⟩

/-! ### PC after each way an instruction ends (R65) -/

section

variable {s u t : State}

theorem pc_of_next_advance (h : (.next u.advance : Result) = .next t) (hu : u.pc = s.pc) : t.pc = s.pc + 2 := by
  rw [← next_inj.1 h, State.advance_pc, hu]

theorem pc_of_withIndexRange_advance {count : Nat}
    (h : withIndexRange s count (.next u.advance) = .next t) (hu : u.pc = s.pc) : t.pc = s.pc + 2 :=
  pc_of_next_advance (next_inj.2 (withIndexRange_eq_next.1 h).1) hu

theorem pc_of_next_skipIf {c : Bool} (h : (.next (s.skipIf c) : Result) = .next t) :
    t.pc = if c then s.pc + 4 else s.pc + 2 := by
  rw [← next_inj.1 h, State.skipIf_pc]

theorem pc_of_next_setPC {a : Word} (h : (.next (s.setPC a) : Result) = .next t) : t.pc = a := by
  rw [← next_inj.1 h, State.setPC_pc]

theorem pc_of_pushAndJump {a : Word} (h : pushAndJump s a = .next t) : t.pc = a := by
  obtain ⟨_, rfl⟩ := pushAndJump_eq_next.1 h
  rfl

theorem pc_of_popAndReturn (h : popAndReturn s = .next t) :
    ∃ k : Fin 16, k.val + 1 = s.sp.val ∧ t.pc = s.stack[k.val] + 2 := by
  obtain ⟨hsp, rfl⟩ := popAndReturn_eq_next.1 h
  exact ⟨⟨s.sp.val - 1, by omega⟩, Nat.sub_add_cancel (Nat.pos_of_ne_zero hsp), rfl⟩

/-! ### The instructions that complete under a condition -/

/-- R96: the shift completes only under ShiftLeft. -/
theorem exec8xyE_eq_next {x y : Reg} :
    exec8xyE x y s = .next t ↔ s.params.shl = .shiftLeft ∧ (s.writeAlu aluShl x y).advance = t := by
  unfold exec8xyE
  cases s.params.shl <;> simp

/-- R83: both values of P_BNNN jump to the same target. -/
theorem pc_of_execBnnn {nnn : BitVec 12} (h : execBnnn nnn s = .next t) :
    t.pc.toNat = ((s.reg 0).toNat + nnn.toNat) % 4096 := by
  have hpc : t.pc = BitVec.ofNat 16 (((s.reg 0).toNat + nnn.toNat) % 4096) := by
    unfold execBnnn at h
    cases hmode : s.params.bnnn <;> simp only [hmode] at h
    case jump => exact pc_of_next_setPC h
    case pushThenJump => exact pc_of_pushAndJump h
  rw [hpc, BitVec.toNat_ofNat]
  omega

/-- R24, R110: a byte either names one of the 16 keys or names none. -/
theorem keyPressed_eq_some {k : Nat} {b : Bool} :
    s.keyPressed k = some b ↔ ∃ j : Fin 16, k = j.val ∧ s.key[j.val] = b := by
  constructor
  · intro h
    obtain ⟨hk, hb⟩ := Vector.getElem?_eq_some_iff.1 h
    exact ⟨⟨k, hk⟩, rfl, hb⟩
  · rintro ⟨j, rfl, rfl⟩
    exact keyPressed_of_lt s j.isLt

/-- R108, R110: Ex9E completes exactly when V[x] names a key, and skips when that key is pressed. -/
theorem execEx9E_eq_next {x : Reg} :
    execEx9E x s = .next t ↔ ∃ b, s.keyPressed (s.reg x).toNat = some b ∧ s.skipIf b = t := by
  unfold execEx9E
  cases s.keyPressed (s.reg x).toNat <;> simp

/-- R109, R110: ExA1 completes exactly when V[x] names a key, and skips when that key is not pressed. -/
theorem execExA1_eq_next {x : Reg} :
    execExA1 x s = .next t ↔ ∃ b, s.keyPressed (s.reg x).toNat = some b ∧ s.skipIf (!b) = t := by
  unfold execExA1
  cases s.keyPressed (s.reg x).toNat <;> simp

theorem pc_of_execEx9E {x : Reg} (h : execEx9E x s = .next t) :
    ∃ k : Fin 16, (s.reg x).toNat = k.val ∧ t.pc = if s.key[k.val] then s.pc + 4 else s.pc + 2 := by
  obtain ⟨b, hb, rfl⟩ := execEx9E_eq_next.1 h
  obtain ⟨k, hk, rfl⟩ := keyPressed_eq_some.1 hb
  exact ⟨k, hk, State.skipIf_pc ..⟩

theorem pc_of_execExA1 {x : Reg} (h : execExA1 x s = .next t) :
    ∃ k : Fin 16, (s.reg x).toNat = k.val ∧ t.pc = if s.key[k.val] then s.pc + 2 else s.pc + 4 := by
  obtain ⟨b, hb, rfl⟩ := execExA1_eq_next.1 h
  obtain ⟨k, hk, rfl⟩ := keyPressed_eq_some.1 hb
  refine ⟨k, hk, ?_⟩
  cases hkey : s.key[k.val] <;> simp

/-- R111: with a key pressed the scan finds one and Fx0A goes on; with none it waits at its own address. -/
theorem pc_of_execFx0A {x : Reg} (h : execFx0A x s = .next t) :
    if ∃ k : Fin 16, s.key[k.val] = true then t.pc = s.pc + 2 else t.pc = s.pc := by
  unfold execFx0A at h
  cases hkey : s.lowestKey with
  | none =>
    have hnone := lowestKey_eq_none.1 hkey
    rw [if_neg (by simp [hnone])]
    simp only [hkey, next_inj] at h
    rw [h]
  | some k =>
    obtain ⟨hk, hpressed, _⟩ := lowestKey_eq_some.1 hkey
    rw [if_pos ⟨⟨k, hk⟩, hpressed⟩]
    simp only [hkey] at h
    exact pc_of_next_advance h rfl

end

/-! ### Where PC goes, for every instruction -/

/-- Settles O12, by the instruction: each one ends in one of the ways whose PC is said above. -/
theorem programCounterUpdates : Obligations.ProgramCounterUpdates := by
  intro i s t h
  cases i with
  | op00EE => exact pc_of_popAndReturn h
  | op1nnn nnn => exact (congrArg BitVec.toNat (pc_of_next_setPC h)).trans (zext16_toNat nnn)
  | op2nnn nnn => exact (congrArg BitVec.toNat (pc_of_pushAndJump h)).trans (zext16_toNat nnn)
  | opBnnn nnn => exact pc_of_execBnnn h
  | op3xnn | op5xy0 => simpa only [beq_iff_eq] using pc_of_next_skipIf h
  | op4xnn | op9xy0 => simpa only [bne_iff_ne, ite_not] using pc_of_next_skipIf h
  | opEx9E => exact pc_of_execEx9E h
  | opExA1 => exact pc_of_execExA1 h
  | opFx0A => exact pc_of_execFx0A h
  | opDxyn | opFx33 | opFx55 | opFx65 => exact pc_of_withIndexRange_advance h rfl
  | op8xy4 | op8xy5 | op8xy6 | op8xy7 => exact pc_of_next_advance h (State.writeAlu_pc ..)
  | op8xyE => exact pc_of_next_advance (next_inj.2 (exec8xyE_eq_next.1 h).2) (State.writeAlu_pc ..)
  | _ => exact pc_of_next_advance h rfl

end Sys2Proof
end

section
/-! The display instructions (41_display.md R72): what the clear screen holds, and what 00E0 leaves. -/

namespace Sys2Proof

open Machine

@[simp] theorem clear_pixel (r : Fin 32) (c : Fin 64) : Framebuffer.clear[r.val][c.val] = false := by
  simp [Framebuffer.clear]

/-- R72: 00E0 completes in every state. -/
theorem exec_op00E0 (s : State) : exec .op00E0 s = .next (s.setFB Framebuffer.clear).advance := rfl

/-- Settles O23: 00E0 stores the clear framebuffer, which is 0 at every pixel, and goes on; its row of the opcode map
covers one word. -/
theorem clearScreen : Obligations.ClearScreen :=
  ⟨decodesAs_op00E0, fun s => ⟨_, exec_op00E0 s, clear_pixel, rfl⟩⟩

end Sys2Proof
end

section
/-! Control flow (42_control_flow.md R76 to R82): the return and the call by the depth of the stack, and the jump and the
skips as one whole next state each. -/

namespace Sys2Proof

open Machine

/-! ### The call stack at depth k -/

/-- R21, R76: a pop from depth k + 1 reads entry k and leaves it in place. -/
theorem popAndReturn_succ {s : State} (k : Fin 16) (h : s.sp.val = k.val + 1) :
    popAndReturn s = .next { s with sp := k.castSucc, pc := s.stack[k.val] + 2 } := by
  have hne : s.sp.val ≠ 0 := by omega
  refine popAndReturn_eq_next.2 ⟨hne, ?_⟩
  have hsp : s.sp.val - 1 = k.val := by omega
  simp only [hsp]
  rfl

/-- R21, R78: a push at depth k fills entry k. -/
theorem pushAndJump_at {s : State} (k : Fin 16) (h : s.sp.val = k.val) (target : Word) :
    pushAndJump s target = .next { s with stack := s.stack.set k.val s.pc, sp := k.succ, pc := target } := by
  have hlt : s.sp.val < 16 := h ▸ k.isLt
  rw [pushAndJump_room hlt]
  simp only [h]
  rfl

/-! ### The skips -/

theorem skipIf_beq {α : Type} [DecidableEq α] (s : State) (a b : α) :
    s.skipIf (a == b) = { s with pc := if a = b then s.pc + 4 else s.pc + 2 } := by
  simp only [State.skipIf_eq, beq_iff_eq]

theorem skipIf_bne {α : Type} [DecidableEq α] (s : State) (a b : α) :
    s.skipIf (a != b) = { s with pc := if a ≠ b then s.pc + 4 else s.pc + 2 } := by
  simp only [State.skipIf_eq, bne_iff_ne]

/-! ### What the execute phase runs -/

theorem exec_op00EE (s : State) : exec .op00EE s = popAndReturn s := rfl

theorem exec_op1nnn (s : State) (nnn : BitVec 12) : exec (.op1nnn nnn) s = .next (s.setPC (zext16 nnn)) := rfl

theorem exec_op2nnn (s : State) (nnn : BitVec 12) : exec (.op2nnn nnn) s = pushAndJump s (zext16 nnn) := rfl

/-- R79. -/
theorem exec_op3xnn (s : State) (x : Reg) (nn : Byte) :
    exec (.op3xnn x nn) s = .next { s with pc := if s.reg x = nn then s.pc + 4 else s.pc + 2 } :=
  congrArg _ (skipIf_beq ..)

/-- R80. -/
theorem exec_op4xnn (s : State) (x : Reg) (nn : Byte) :
    exec (.op4xnn x nn) s = .next { s with pc := if s.reg x ≠ nn then s.pc + 4 else s.pc + 2 } :=
  congrArg _ (skipIf_bne ..)

/-- R81. -/
theorem exec_op5xy0 (s : State) (x y : Reg) :
    exec (.op5xy0 x y) s = .next { s with pc := if s.reg x = s.reg y then s.pc + 4 else s.pc + 2 } :=
  congrArg _ (skipIf_beq ..)

/-- R82. -/
theorem exec_op9xy0 (s : State) (x y : Reg) :
    exec (.op9xy0 x y) s = .next { s with pc := if s.reg x ≠ s.reg y then s.pc + 4 else s.pc + 2 } :=
  congrArg _ (skipIf_bne ..)

/-! ### The obligations -/

/-- Settles O26: the pop faults at depth 0, and at depth k + 1 it reads entry k. -/
theorem returnFromSubroutine : Obligations.ReturnFromSubroutine := by
  refine ⟨decodesAs_op00EE, fun s => ⟨popAndReturn_empty, fun k hk => ?_⟩⟩
  exact ⟨_, (exec_op00EE s).trans (popAndReturn_succ k hk), rfl, rfl⟩

/-- Settles O27: the target is below 4096, so widening it to PC keeps it. -/
theorem jumpToAddress : Obligations.JumpToAddress :=
  ⟨decodesAs_op1nnn, fun s nnn => ⟨_, exec_op1nnn s nnn, zext16_toNat nnn, rfl⟩⟩

/-- Settles O28: the push faults at depth 16, and at depth k below 16 it fills entry k. -/
theorem callSubroutine : Obligations.CallSubroutine := by
  refine ⟨decodesAs_op2nnn, fun s nnn => ⟨fun hfull => pushAndJump_full hfull _, fun k hk => ?_⟩⟩
  exact ⟨_, (exec_op2nnn s nnn).trans (pushAndJump_at k hk _), Fin.val_succ k, zext16_toNat nnn, rfl⟩

/-- Settles O30: both skips compare V[x] with nn. -/
theorem skipOnImmediate : Obligations.SkipOnImmediate :=
  ⟨decodesAs_op3xnn, decodesAs_op4xnn, fun s x nn => ⟨exec_op3xnn s x nn, exec_op4xnn s x nn⟩⟩

/-- Settles O31: both skips compare V[x] with V[y]. -/
theorem skipOnRegisters : Obligations.SkipOnRegisters :=
  ⟨decodesAs_op5xy0, decodesAs_op9xy0, fun s x y => ⟨exec_op5xy0 s x y, exec_op9xy0 s x y⟩⟩

end Sys2Proof
end

section
/-! The immediate load and add (43_alu.md R85, R86): one register write each, as a whole next state. -/

namespace Sys2Proof

open Machine

theorem reg_setReg_advance (s : State) (r : Reg) (b : Byte) : (s.setReg r b).advance.reg r = b := by
  rw [State.reg_advance, State.reg_setReg_same]

/-- A register write that goes on, with the value written named by reading it back (R14, R65). -/
theorem setReg_advance_eq (s : State) (r : Reg) (b : Byte) :
    (s.setReg r b).advance =
      { s with v := s.v.set r.val ((s.setReg r b).advance.reg r), pc := s.pc + 2 } := by
  rw [reg_setReg_advance]
  rfl

/-! ### What the execute phase runs -/

theorem exec_op6xnn (s : State) (x : Reg) (nn : Byte) : exec (.op6xnn x nn) s = .next (s.setReg x nn).advance := rfl

theorem exec_op7xnn (s : State) (x : Reg) (nn : Byte) :
    exec (.op7xnn x nn) s = .next (s.setReg x (s.reg x + nn)).advance := rfl

/-! ### The obligation -/

/-- Settles O33: both write V[x] and nothing else but PC, and byte addition wraps modulo 256. -/
theorem loadAndAddImmediate : Obligations.LoadAndAddImmediate := by
  refine ⟨decodesAs_op6xnn, decodesAs_op7xnn, fun s x nn => ⟨exec_op6xnn s x nn, ?_⟩⟩
  refine ⟨_, exec_op7xnn s x nn, ?_, setReg_advance_eq ..⟩
  rw [reg_setReg_advance]
  exact BitVec.toNat_add ..

end Sys2Proof
end

section
/-! The index register and memory instructions (44_index_memory.md R101, R104 to R106): what each leaves when its
addresses are in MEM, what a read of the stored bytes gives, and the fault past the end. -/

namespace Sys2Proof

open Machine

/-! ### What the execute phase runs -/

theorem exec_opAnnn (s : State) (nnn : BitVec 12) : exec (.opAnnn nnn) s = .next (s.setI (zext16 nnn)).advance := rfl

section

variable {s : State} {x : Reg}

/-- R104, with the three addresses in MEM. -/
theorem exec_opFx33_fits (h : s.i.toNat + 2 ≤ 0xFFF) :
    exec (.opFx33 x) s =
      .next { s with mem := s.mem.store s.i.toNat (bcdDigits (s.reg x)), pc := s.pc + 2 } :=
  withIndexRange_fits _ (.inr (by omega))

/-- R105, with the x + 1 addresses in MEM. -/
theorem exec_opFx55_fits (h : s.i.toNat + x.val ≤ 0xFFF) :
    exec (.opFx55 x) s =
      .next { s with mem := s.mem.store s.i.toNat (s.v.toList.take (x.val + 1)), pc := s.pc + 2 } :=
  withIndexRange_fits _ (.inr (by omega))

/-- R106, with the x + 1 addresses in MEM; the new I is made from the old. -/
theorem exec_opFx65_fits (h : s.i.toNat + x.val ≤ 0xFFF) :
    exec (.opFx65 x) s =
      .next { s with
        v := s.loadRegs s.i.toNat x, i := BitVec.ofNat 16 (s.i.toNat + x.val + 1), pc := s.pc + 2 } :=
  withIndexRange_fits _ (.inr (by omega))

/-- R104, R118: Fx33 past the end of MEM. -/
theorem exec_opFx33_past (h : 0xFFF < s.i.toNat + 2) :
    exec (.opFx33 x) s = .fault (.outOfBounds (max s.i.toNat 0x1000) s.pc) :=
  withIndexRange_past _ (by decide) (by omega)

/-- R105, R118: Fx55 past the end of MEM. -/
theorem exec_opFx55_past (h : 0xFFF < s.i.toNat + x.val) :
    exec (.opFx55 x) s = .fault (.outOfBounds (max s.i.toNat 0x1000) s.pc) :=
  withIndexRange_past _ (Nat.succ_pos _) (by omega)

/-- R106, R118: Fx65 past the end of MEM. -/
theorem exec_opFx65_past (h : 0xFFF < s.i.toNat + x.val) :
    exec (.opFx65 x) s = .fault (.outOfBounds (max s.i.toNat 0x1000) s.pc) :=
  withIndexRange_past _ (Nat.succ_pos _) (by omega)

end

/-! ### The decimal digits (R99, R104) -/

@[simp] theorem bcdDigits_length (b : Byte) : (bcdDigits b).length = 3 := rfl

/-- Each digit is below 256, so its byte holds it whole. -/
theorem bcdDigits_toNat (b : Byte) :
    (bcdDigits b).map BitVec.toNat = [b.toNat / 100, b.toNat / 10 % 10, b.toNat % 10] := by
  have := b.isLt
  simp only [bcdDigits, List.map_cons, List.map_nil, BitVec.toNat_ofNat, List.cons.injEq, and_true]
  omega

/-- Digit k is read back k places after the first. -/
theorem toNat_read_store_bcdDigits {m : Memory} (hwf : m.wf) {a : Nat} (ha : a + 2 ≤ 0xFFF) (b : Byte) (k : Fin 3) :
    ((m.store a (bcdDigits b)).read (a + k.val)).toNat = [b.toNat / 100, b.toNat / 10 % 10, b.toNat % 10][k] := by
  have hfits : a + (bcdDigits b).length ≤ memSize := by
    simp only [bcdDigits_length, memSize]
    omega
  rw [Memory.read_store_inside _ hwf hfits k.val k.isLt]
  exact (List.getElem_map BitVec.toNat).symm.trans (List.getElem_of_eq (bcdDigits_toNat b) k.isLt)

/-! ### The registers V[0]..V[x] in memory (R105, R106) -/

theorem length_take_regs (s : State) (x : Reg) : (s.v.toList.take (x.val + 1)).length = x.val + 1 := by
  rw [List.length_take, Vector.length_toList]
  exact Nat.min_eq_left x.isLt

/-- V[r] is read back r places after V[0]. -/
theorem read_store_regs {s : State} {m : Memory} (hwf : m.wf) {a : Nat} {x r : Reg} (ha : a + x.val ≤ 0xFFF)
    (hr : r ≤ x) : (m.store a (s.v.toList.take (x.val + 1))).read (a + r.val) = s.reg r := by
  have hlen := length_take_regs s x
  have hlt : r.val < x.val + 1 := Nat.lt_succ_of_le hr
  have hfits : a + (s.v.toList.take (x.val + 1)).length ≤ memSize := by
    simp only [hlen, memSize]
    omega
  rw [Memory.read_store_inside _ hwf hfits r.val (hlen.symm ▸ hlt), List.getElem_take, Vector.getElem_toList]
  rfl

/-- R106: the registers up to x come from memory, the others stay. -/
theorem getElem_loadRegs (s : State) (a : Nat) (x r : Reg) :
    (s.loadRegs a x)[r.val] = if r ≤ x then s.mem.read (a + r.val) else s.reg r :=
  Vector.getElem_ofFn ..

/-! ### The obligations -/

/-- Settles O40: nnn is below 4096, so widening it to I keeps it. -/
theorem loadIndex : Obligations.LoadIndex :=
  ⟨decodesAs_opAnnn, fun s nnn => ⟨_, exec_opAnnn s nnn, zext16_toNat nnn, rfl⟩⟩

/-- Settles O42: a store of the three digits, each read back at its own address, or the fault of its range. -/
theorem storeDecimalDigits : Obligations.StoreDecimalDigits := by
  refine ⟨decodesAs_opFx33, fun s x => ⟨fun hfits => ⟨_, exec_opFx33_fits hfits, ?_, ?_, rfl⟩, exec_opFx33_past⟩⟩
  · intro hwf
    have hdigit := toNat_read_store_bcdDigits hwf hfits (s.reg x)
    exact ⟨hdigit 0, hdigit 1, hdigit 2⟩
  · intro a ha
    refine Memory.read_store_outside _ _ ?_
    rw [bcdDigits_length]
    omega

/-- Settles O43: a store of the first x + 1 registers, each read back at its own address, or the fault of its range. -/
theorem storeRegisters : Obligations.StoreRegisters := by
  refine ⟨decodesAs_opFx55, fun s x => ⟨fun hfits => ⟨_, exec_opFx55_fits hfits, ?_, ?_, rfl⟩, exec_opFx55_past⟩⟩
  · exact fun hwf _ hr => read_store_regs hwf hfits hr
  · intro a ha
    refine Memory.read_store_outside _ _ ?_
    rw [length_take_regs]
    omega

/-- Settles O44: the loaded registers split at x, and I wraps as a 16-bit word; or the fault of its range. -/
theorem loadRegistersAndAdvance : Obligations.LoadRegistersAndAdvance := by
  refine ⟨decodesAs_opFx65, fun s x =>
    ⟨fun hfits => ⟨_, exec_opFx65_fits hfits, ?_, ?_, BitVec.toNat_ofNat .., rfl⟩, exec_opFx65_past⟩⟩
  · exact fun r hr => (getElem_loadRegs ..).trans (if_pos hr)
  · exact fun r hr => (getElem_loadRegs ..).trans (if_neg (not_le.2 hr))

end Sys2Proof
end

section
/-! The delay timer instructions (45_keys_timers.md R112, R113): what the execute phase leaves, and what the tick of the
same cycle then makes of it (R67). -/

namespace Sys2Proof

open Machine

/-! ### A step whose execute phase completes (R71) -/

theorem step_of_exec_next {s u : State} {w : Word} {i : Instr} (hw : fetchWord s = .ok w)
    (hi : decodeWord s.params w = some i) (hu : exec i s = .next u) : step s = .next (tick i s u) :=
  step_eq_next.2 ⟨w, i, u, hw, hi, hu, rfl⟩

@[simp] theorem reg_tick (i : Instr) (s t : State) (r : Reg) : (tick i s t).reg r = t.reg r := rfl

theorem tick_dt_toNat (i : Instr) (s t : State) : (tick i s t).dt.toNat = t.dt.toNat - 1 := tickTimer_toNat t.dt

/-! ### What the execute phase runs -/

theorem exec_opFx07 (s : State) (x : Reg) : exec (.opFx07 x) s = .next (s.setReg x s.dt).advance := rfl

theorem exec_opFx15 (s : State) (x : Reg) : exec (.opFx15 x) s = .next (s.setDT (s.reg x)).advance := rfl

/-! ### The obligation -/

/-- Settles O49: each is one write and goes on; the tick comes after the write, so Fx07 has read the old DT and Fx15's
new DT is the one decremented. -/
theorem delayTimerInstructions : Obligations.DelayTimerInstructions := by
  refine ⟨decodesAs_opFx07, decodesAs_opFx15, fun s x =>
    ⟨exec_opFx07 s x, exec_opFx15 s x, fun w hw => ⟨fun hdec => ?_, fun hdec => ?_⟩⟩⟩
  · refine ⟨_, step_of_exec_next hw hdec (exec_opFx07 s x), ?_, tick_dt_toNat ..⟩
    rw [reg_tick, reg_setReg_advance]
  · exact ⟨_, step_of_exec_next hw hdec (exec_opFx15 s x), tick_dt_toNat ..⟩

end Sys2Proof
end

section
/-! The encoder against the decoder, and the unsupported words (30_encoding.md R50 to R58): the fields of a word the
encoder makes are the operands it was made from; and each family is a range of function codes, some of them
instructions, which is what the unsupported words are counted by. -/

namespace Sys2Proof

open Machine

/-! ### The fields of a word the encoder makes -/

theorem fieldNNN_encNNN (f : Nat) (nnn : BitVec 12) : fieldNNN (encNNN f nnn) = nnn := by
  have := nnn.isLt
  apply BitVec.eq_of_toNat_eq
  rw [fieldNNN_toNat, encNNN, BitVec.toNat_ofNat]
  omega

theorem fieldX_encXNN (f : Nat) (x : Reg) {n : Nat} (hn : n < 256) : fieldX (encXNN f x n) = x := by
  apply Fin.ext
  rw [fieldX_val, encXNN, BitVec.toNat_ofNat]
  omega

theorem fieldNN_encXNN (f : Nat) (x : Reg) (nn : Byte) : fieldNN (encXNN f x nn.toNat) = nn := by
  have := nn.isLt
  apply BitVec.eq_of_toNat_eq
  rw [fieldNN_toNat, encXNN, BitVec.toNat_ofNat]
  omega

theorem fieldX_encXYN (f : Nat) (x y : Reg) {n : Nat} (hn : n < 16) : fieldX (encXYN f x y n) = x := by
  apply Fin.ext
  rw [fieldX_val, encXYN, BitVec.toNat_ofNat]
  omega

theorem fieldY_encXYN (f : Nat) (x y : Reg) {n : Nat} (hn : n < 16) : fieldY (encXYN f x y n) = y := by
  apply Fin.ext
  rw [fieldY_val, encXYN, BitVec.toNat_ofNat]
  omega

theorem fieldN_encXYN (f : Nat) (x y n : Fin 16) : fieldN (encXYN f x y n.val) = n := by
  apply Fin.ext
  rw [fieldN_val, encXYN, BitVec.toNat_ofNat]
  omega

/-- Format XNN, for the form `c` of any family. -/
theorem fields_encXNN (c : Reg → Byte → Instr) (f : Nat) (x : Reg) (nn : Byte) :
    c (fieldX (encXNN f x nn.toNat)) (fieldNN (encXNN f x nn.toNat)) = c x nn := by
  rw [fieldX_encXNN f x nn.isLt, fieldNN_encXNN]

/-- Formats XY and XYN, for the form `c` of any family. -/
theorem fields_encXYN (c : Reg → Reg → Instr) (f : Nat) (x y : Reg) {n : Nat} (hn : n < 16) :
    c (fieldX (encXYN f x y n)) (fieldY (encXYN f x y n)) = c x y := by
  rw [fieldX_encXYN f x y hn, fieldY_encXYN f x y hn]

/-! ### Decoding an encoded instruction -/

/-- The word of `i` belongs to the row of `i`, so the row's reading of its fields is what it decodes to. -/
theorem decodeWord_encode_of_row {pattern mask : Word} {f : Word → Instr} (h : DecodesAs pattern mask f) (p : Params)
    {i : Instr} (hrow : i.row = ⟨pattern, mask⟩) (hfields : f (encode i) = i) : decodeWord p (encode i) = some i := by
  have hcov := (encodesRow i).1
  rw [hrow, OpcodeRow.covers, beq_iff_eq] at hcov
  rw [(h p _).2 hcov, hfields]

/-- R58: the row of 8xyE decodes under ShiftLeft. -/
theorem decodeWord_encode_8xyE {p : Params} (hshl : p.shl = .shiftLeft) (x y : Reg) :
    decodeWord p (encode (.op8xyE x y)) = some (.op8xyE x y) := by
  rw [decodeWord_of_covers_8xyE p (beq_iff_eq.1 (encodesRow (.op8xyE x y)).1), if_pos hshl]
  exact congrArg some (fields_encXYN .op8xyE 0x8 x y (by decide))

theorem decodeWord_encode (p : Params) : ∀ i : Instr, i.wf p = true → decodeWord p (encode i) = some i
  | .op00E0, _ => decodeWord_encode_of_row decodesAs_op00E0 p rfl rfl
  | .op00EE, _ => decodeWord_encode_of_row decodesAs_op00EE p rfl rfl
  | .op1nnn nnn, _ => decodeWord_encode_of_row decodesAs_op1nnn p rfl (congrArg _ (fieldNNN_encNNN 0x1 nnn))
  | .op2nnn nnn, _ => decodeWord_encode_of_row decodesAs_op2nnn p rfl (congrArg _ (fieldNNN_encNNN 0x2 nnn))
  | .op3xnn x nn, _ => decodeWord_encode_of_row decodesAs_op3xnn p rfl (fields_encXNN .op3xnn 0x3 x nn)
  | .op4xnn x nn, _ => decodeWord_encode_of_row decodesAs_op4xnn p rfl (fields_encXNN .op4xnn 0x4 x nn)
  | .op5xy0 x y, _ => decodeWord_encode_of_row decodesAs_op5xy0 p rfl (fields_encXYN .op5xy0 0x5 x y (by decide))
  | .op6xnn x nn, _ => decodeWord_encode_of_row decodesAs_op6xnn p rfl (fields_encXNN .op6xnn 0x6 x nn)
  | .op7xnn x nn, _ => decodeWord_encode_of_row decodesAs_op7xnn p rfl (fields_encXNN .op7xnn 0x7 x nn)
  | .op8xy0 x y, _ => decodeWord_encode_of_row decodesAs_op8xy0 p rfl (fields_encXYN .op8xy0 0x8 x y (by decide))
  | .op8xy1 x y, _ => decodeWord_encode_of_row decodesAs_op8xy1 p rfl (fields_encXYN .op8xy1 0x8 x y (by decide))
  | .op8xy2 x y, _ => decodeWord_encode_of_row decodesAs_op8xy2 p rfl (fields_encXYN .op8xy2 0x8 x y (by decide))
  | .op8xy3 x y, _ => decodeWord_encode_of_row decodesAs_op8xy3 p rfl (fields_encXYN .op8xy3 0x8 x y (by decide))
  | .op8xy4 x y, _ => decodeWord_encode_of_row decodesAs_op8xy4 p rfl (fields_encXYN .op8xy4 0x8 x y (by decide))
  | .op8xy5 x y, _ => decodeWord_encode_of_row decodesAs_op8xy5 p rfl (fields_encXYN .op8xy5 0x8 x y (by decide))
  | .op8xy6 x y, _ => decodeWord_encode_of_row decodesAs_op8xy6 p rfl (fields_encXYN .op8xy6 0x8 x y (by decide))
  | .op8xy7 x y, _ => decodeWord_encode_of_row decodesAs_op8xy7 p rfl (fields_encXYN .op8xy7 0x8 x y (by decide))
  | .op8xyE x y, hwf => decodeWord_encode_8xyE (beq_iff_eq.1 hwf) x y
  | .op9xy0 x y, _ => decodeWord_encode_of_row decodesAs_op9xy0 p rfl (fields_encXYN .op9xy0 0x9 x y (by decide))
  | .opAnnn nnn, _ => decodeWord_encode_of_row decodesAs_opAnnn p rfl (congrArg _ (fieldNNN_encNNN 0xA nnn))
  | .opBnnn nnn, _ => decodeWord_encode_of_row decodesAs_opBnnn p rfl (congrArg _ (fieldNNN_encNNN 0xB nnn))
  | .opCxnn x nn, _ => decodeWord_encode_of_row decodesAs_opCxnn p rfl (fields_encXNN .opCxnn 0xC x nn)
  | .opDxyn x y n, _ => decodeWord_encode_of_row decodesAs_opDxyn p rfl
      ((fields_encXYN (.opDxyn · · _) 0xD x y n.isLt).trans (congrArg _ (fieldN_encXYN 0xD x y n)))
  | .opEx9E x, _ => decodeWord_encode_of_row decodesAs_opEx9E p rfl (congrArg _ (fieldX_encXNN 0xE x (by decide)))
  | .opExA1 x, _ => decodeWord_encode_of_row decodesAs_opExA1 p rfl (congrArg _ (fieldX_encXNN 0xE x (by decide)))
  | .opFx07 x, _ => decodeWord_encode_of_row decodesAs_opFx07 p rfl (congrArg _ (fieldX_encXNN 0xF x (by decide)))
  | .opFx0A x, _ => decodeWord_encode_of_row decodesAs_opFx0A p rfl (congrArg _ (fieldX_encXNN 0xF x (by decide)))
  | .opFx15 x, _ => decodeWord_encode_of_row decodesAs_opFx15 p rfl (congrArg _ (fieldX_encXNN 0xF x (by decide)))
  | .opFx18 x, _ => decodeWord_encode_of_row decodesAs_opFx18 p rfl (congrArg _ (fieldX_encXNN 0xF x (by decide)))
  | .opFx1E x, _ => decodeWord_encode_of_row decodesAs_opFx1E p rfl (congrArg _ (fieldX_encXNN 0xF x (by decide)))
  | .opFx29 x, _ => decodeWord_encode_of_row decodesAs_opFx29 p rfl (congrArg _ (fieldX_encXNN 0xF x (by decide)))
  | .opFx33 x, _ => decodeWord_encode_of_row decodesAs_opFx33 p rfl (congrArg _ (fieldX_encXNN 0xF x (by decide)))
  | .opFx55 x, _ => decodeWord_encode_of_row decodesAs_opFx55 p rfl (congrArg _ (fieldX_encXNN 0xF x (by decide)))
  | .opFx65 x, _ => decodeWord_encode_of_row decodesAs_opFx65 p rfl (congrArg _ (fieldX_encXNN 0xF x (by decide)))

/-- R58: what a word decodes to exists under the parameters; only 8xyE has a condition, and the decoder checks it. -/
theorem wf_of_decodeWord {p : Params} {w : Word} {i : Instr} (h : decodeWord p w = some i) : i.wf p = true := by
  cases i with
  | op8xyE x y =>
    rw [decodeWord_of_covers_8xyE p (beq_iff_eq.1 (covers_of_decodeWord h))] at h
    by_cases hshl : p.shl = .shiftLeft
    · exact beq_iff_eq.2 hshl
    · rw [if_neg hshl] at h
      cases h
  | _ => rfl

/-- Settles O1: the encoder puts each operand where its row reads it, and the two bytes of a word read back as it. -/
theorem decodeOfEncode : Obligations.DecodeOfEncode := by
  intro p i rest hwf
  have hdec := decodeWord_encode p i hwf
  refine ⟨hdec, ?_⟩
  simp only [wordBytes, List.cons_append, List.nil_append, decode, bigEndian_wordBytes, hdec]

/-- Settles O2: each branch of the decoder rebuilds the word from its fields. -/
theorem encodeOfDecode : Obligations.EncodeOfDecode :=
  fun _ _ _ h => ⟨encode_of_decodeWord h, wf_of_decodeWord h⟩

/-- Settles O5: one word of each family, and three that no row covers. -/
theorem wordsOfEveryFamilyDecode : Obligations.WordsOfEveryFamilyDecode := by
  intro p
  and_intros <;> rfl

/-! ### Each family as a range of function codes -/

/-- How many function codes the words of family `f` can hold: the low 12 bits in family 0, else a nibble, a byte, or
none (R56). -/
def codeRange : Nat → Nat
  | 0x0 => 4096
  | 0x5 | 0x8 | 0x9 => 16
  | 0xE | 0xF => 256
  | _ => 1

/-- The function codes of family `f` that are instructions (R56 to R58). -/
def codes (p : Params) : Nat → Finset Nat
  | 0x0 => {0x0E0, 0x0EE}
  | 0x8 =>
    if p.shl = .shiftLeft then {0x0, 0x1, 0x2, 0x3, 0x4, 0x5, 0x6, 0x7, 0xE}
    else {0x0, 0x1, 0x2, 0x3, 0x4, 0x5, 0x6, 0x7}
  | 0xE => {0x9E, 0xA1}
  | 0xF => {0x07, 0x0A, 0x15, 0x18, 0x1E, 0x29, 0x33, 0x55, 0x65}
  | _ => {0}

theorem lt_codeRange_of_mem_codes (p : Params) (f : Nat) : ∀ c ∈ codes p f, c < codeRange f := by
  unfold codes
  split
  case h_2 => split <;> decide
  case h_5 =>
    unfold codeRange
    split <;> decide
  all_goals decide

theorem codeRange_dvd (f : Nat) : codeRange f ∣ 4096 := by
  unfold codeRange
  split <;> decide

/-- A word of family 0 is its low 12 bits. -/
theorem eq_iff_of_fieldF_zero {w q : Word} (hF : fieldF w = 0) (hq : q.toNat < 4096) :
    w = q ↔ w.toNat % 4096 = q.toNat := by
  refine ⟨fun h => by rw [h, Nat.mod_eq_of_lt hq], fun h => BitVec.eq_of_toNat_eq ?_⟩
  rw [fieldF_eq] at hF
  omega

theorem decodeFamily0_eq_none_iff (p : Params) {w : Word} (hF : fieldF w = 0) :
    decodeFamily0 w = none ↔ w.toNat % 4096 ∉ codes p 0x0 := by
  unfold decodeFamily0 codes
  split <;> simp_all [eq_iff_of_fieldF_zero]

theorem decodeFamily8_eq_none_iff {p : Params} {x y : Reg} {n : Nat} :
    decodeFamily8 p x y n = none ↔ n ∉ codes p 0x8 := by
  unfold decodeFamily8 codes
  split <;> by_cases hshl : p.shl = .shiftLeft <;> simp_all

theorem decodeFamilyE_eq_none_iff (p : Params) {x : Reg} {n : Nat} : decodeFamilyE x n = none ↔ n ∉ codes p 0xE := by
  unfold decodeFamilyE codes
  split <;> simp_all

theorem decodeFamilyF_eq_none_iff (p : Params) {x : Reg} {n : Nat} : decodeFamilyF x n = none ↔ n ∉ codes p 0xF := by
  unfold decodeFamilyF codes
  split <;> simp_all

/-- R57: a word is unsupported exactly when its function code is none of its family's. -/
theorem decodeWord_eq_none_iff_code {p : Params} {w : Word} :
    decodeWord p w = none ↔ w.toNat % codeRange (fieldF w) ∉ codes p (fieldF w) := by
  have hlt := fieldF_lt w
  have hn : bitField w 0 4 = w.toNat % 16 := by simp [bitField]
  have hnn : bitField w 0 8 = w.toNat % 256 := by simp [bitField]
  unfold decodeWord
  -- The branches stand in the order of the families: h_1 is family 0.
  split
  case h_1 hF => rw [hF]; exact decodeFamily0_eq_none_iff p hF
  case h_9 hF => rw [hF, hn]; exact decodeFamily8_eq_none_iff
  case h_15 hF => rw [hF, hnn]; exact decodeFamilyE_eq_none_iff p
  case h_16 hF => rw [hF, hnn]; exact decodeFamilyF_eq_none_iff p
  case h_6 hF | h_10 hF => simp [hF, hn, codes, codeRange]
  case h_17 =>
    generalize fieldF w = f at *
    interval_cases f <;> contradiction
  all_goals next hF => simp [hF, codes, codeRange, Nat.mod_one]

/-- R57: the unsupported words family by family, in the fields of the word. -/
theorem decodeWord_eq_none_iff_listed {p : Params} {w : Word} : decodeWord p w = none ↔
    (fieldF w = 0x0 ∧ w ≠ 0x00E0 ∧ w ≠ 0x00EE) ∨
    (fieldF w = 0x5 ∧ (fieldN w).val ≠ 0) ∨
    (fieldF w = 0x8 ∧ ((fieldN w).val ∈ [0x8, 0x9, 0xA, 0xB, 0xC, 0xD, 0xF] ∨
      ((fieldN w).val = 0xE ∧ p.shl = .unsupported))) ∨
    (fieldF w = 0x9 ∧ (fieldN w).val ≠ 0) ∨
    (fieldF w = 0xE ∧ (fieldNN w).toNat ∉ [0x9E, 0xA1]) ∨
    (fieldF w = 0xF ∧ (fieldNN w).toNat ∉ [0x07, 0x0A, 0x15, 0x18, 0x1E, 0x29, 0x33, 0x55, 0x65]) := by
  have hlt := fieldF_lt w
  rw [decodeWord_eq_none_iff_code]
  by_cases h0 : fieldF w = 0x0
  · simp [h0, codes, codeRange, eq_iff_of_fieldF_zero h0]
  by_cases h8 : fieldF w = 0x8
  · have hn : w.toNat % 16 < 16 := Nat.mod_lt _ (by decide)
    simp only [h8, codes, codeRange, fieldN_val]
    cases p.shl <;> simp <;> omega
  generalize hF : fieldF w = f at *
  interval_cases f <;> simp_all [codes, codeRange, fieldN_val, fieldNN_toNat, Nat.mod_one]

/-! ### Counting the unsupported words -/

theorem count_congr {q r : Nat → Prop} [DecidablePred q] [DecidablePred r] {n : Nat} (h : ∀ k < n, q k ↔ r k) :
    Nat.count q n = Nat.count r n := by
  simp only [Nat.count_eq_card_filter_range]
  exact congrArg _ (Finset.filter_congr fun k hk => h k (Finset.mem_range.1 hk))

/-- Counting block by block. -/
theorem count_mul {q : Nat → Prop} [DecidablePred q] (m b : Nat) :
    Nat.count q (m * b) = ∑ f ∈ Finset.range m, Nat.count (fun k => q (f * b + k)) b := by
  induction m with
  | zero => simp
  | succ m ih => rw [Nat.succ_mul, Nat.count_add, ih, Finset.sum_range_succ]

/-- Every block of `b` numbers has one of each remainder. -/
theorem count_mod_notMem {b : Nat} {L : Finset Nat} (hL : ∀ c ∈ L, c < b) (m : Nat) :
    Nat.count (fun k => k % b ∉ L) (m * b) = m * (b - L.card) := by
  have hsub : L ⊆ Finset.range b := fun c hc => Finset.mem_range.2 (hL c hc)
  have hblock : Nat.count (fun k => k % b ∉ L) b = b - L.card := by
    rw [count_congr (r := (· ∉ L)) fun k hk => by rw [Nat.mod_eq_of_lt hk], Nat.count_eq_card_filter_range,
      Finset.filter_notMem_eq_sdiff, Finset.card_sdiff_of_subset hsub, Finset.card_range]
  simp only [count_mul, Nat.mul_add_mod', hblock, Finset.sum_const, Finset.card_range, smul_eq_mul]

/-- R57: the unsupported words of family `f`. -/
theorem count_unsupported_of_family (p : Params) {f : Nat} (hf : f < 16) :
    Nat.count (fun k => (decodeWord p (BitVec.ofNat 16 (f * 4096 + k))).isNone = true) 4096 =
      4096 / codeRange f * (codeRange f - (codes p f).card) := by
  rw [← count_mod_notMem (lt_codeRange_of_mem_codes p f), Nat.div_mul_cancel (codeRange_dvd f)]
  refine count_congr fun k hk => ?_
  have hw : (BitVec.ofNat 16 (f * 4096 + k)).toNat = f * 4096 + k := by
    rw [BitVec.toNat_ofNat]
    omega
  have hF : fieldF (BitVec.ofNat 16 (f * 4096 + k)) = f := by
    rw [fieldF_eq]
    omega
  have hmod : (f * 4096 + k) % codeRange f = k % codeRange f := by
    obtain ⟨c, hc⟩ := Dvd.dvd.mul_left (codeRange_dvd f) f
    rw [hc, Nat.mul_add_mod]
  rw [Option.isNone_iff_eq_none, decodeWord_eq_none_iff_code, hF, hw, hmod]

theorem count_unsupported (p : Params) :
    ((List.range 65536).filter fun k => (decodeWord p (BitVec.ofNat 16 k)).isNone).length =
      if p.shl = .unsupported then 21838 else 21582 := by
  rw [← List.countP_eq_length_filter]
  calc (List.range 65536).countP (fun k => (decodeWord p (BitVec.ofNat 16 k)).isNone)
      = Nat.count (fun k => (decodeWord p (BitVec.ofNat 16 k)).isNone = true) (16 * 4096) := by
        simp only [Nat.count, Bool.decide_eq_true, Nat.reduceMul]
    _ = ∑ f ∈ Finset.range 16, 4096 / codeRange f * (codeRange f - (codes p f).card) := by
        rw [count_mul]
        exact Finset.sum_congr rfl fun f hf => count_unsupported_of_family p (Finset.mem_range.1 hf)
    _ = _ := by cases hshl : p.shl <;> simp [Finset.sum_range_succ, codes, codeRange, hshl]

/-- R57, R117. -/
theorem step_of_undecoded {s : State} {w : Word} (hw : fetchWord s = .ok w) (hi : decodeWord s.params w = none) :
    step s = .fault (.unsupportedOpcode w s.pc) := by
  simp only [step, hw, hi, raise]

/-- Settles O4: the words whose function code their family lacks, counted as so many of each block of codes. -/
theorem unsupportedWords : Obligations.UnsupportedWords :=
  ⟨fun _ _ => decodeWord_eq_none_iff_listed, fun _ _ => step_of_undecoded, count_unsupported⟩

end Sys2Proof
end

section
/-! The execute phase in closed form (40_instruction_cycle.md R65): an instruction raises the fault its rule names, and
where it names none it ends in one state, `completed`, written out field by field. What an instruction leaves unchanged,
what a step ends in and what a program cannot see are read off this form. -/

namespace Sys2Proof

open Machine

/-- A jump to `target` that pushes PC first when `push` says so (R21, R78, R83). -/
def jumpPushing (push : Bool) (s : State) (target : Word) : State :=
  { s with
    stack := if push then s.stack.setIfInBounds s.sp.val s.pc else s.stack
    sp := if push then ⟨min (s.sp.val + 1) 16, by omega⟩ else s.sp
    pc := target }

/-- The screen and the collision bit after drawing the sprite of Dxyn (R73, R74). -/
def drawn (s : State) (x y : Reg) (n : Fin 16) : Blit :=
  Blit.sprite ⟨s.fb, false⟩ s.mem s.i.toNat ((s.reg x).toNat % 64) ((s.reg y).toNat % 32) n.val

/-- The state in which an instruction ends where its rule raises no fault. -/
def completed (i : Instr) (s : State) : State :=
  match i with
  | .op00E0 => (s.setFB Framebuffer.clear).advance
  | .op00EE => { s with sp := ⟨s.sp.val - 1, by omega⟩, pc := s.stack[s.sp.val - 1]'(by omega) + 2 }
  | .op1nnn nnn => s.setPC (zext16 nnn)
  | .op2nnn nnn => jumpPushing true s (zext16 nnn)
  | .op3xnn x nn => s.setPC (if s.reg x = nn then s.pc + 4 else s.pc + 2)
  | .op4xnn x nn => s.setPC (if s.reg x ≠ nn then s.pc + 4 else s.pc + 2)
  | .op5xy0 x y => s.setPC (if s.reg x = s.reg y then s.pc + 4 else s.pc + 2)
  | .op6xnn x nn => (s.setReg x nn).advance
  | .op7xnn x nn => (s.setReg x (s.reg x + nn)).advance
  | .op8xy0 x y => (s.setReg x (s.reg y)).advance
  | .op8xy1 x y => (s.setReg x (s.reg x ||| s.reg y)).advance
  | .op8xy2 x y => (s.setReg x (s.reg x &&& s.reg y)).advance
  | .op8xy3 x y => (s.setReg x (s.reg x ^^^ s.reg y)).advance
  | .op8xy4 x y => { s with v := (s.writeAlu aluAdd x y).v, pc := s.pc + 2 }
  | .op8xy5 x y => { s with v := (s.writeAlu aluSub x y).v, pc := s.pc + 2 }
  | .op8xy6 x y => { s with v := (s.writeAlu aluShr x y).v, pc := s.pc + 2 }
  | .op8xy7 x y => { s with v := (s.writeAlu aluSubn x y).v, pc := s.pc + 2 }
  | .op8xyE x y => { s with v := (s.writeAlu aluShl x y).v, pc := s.pc + 2 }
  | .op9xy0 x y => s.setPC (if s.reg x ≠ s.reg y then s.pc + 4 else s.pc + 2)
  | .opAnnn nnn => (s.setI (zext16 nnn)).advance
  | .opBnnn nnn =>
    jumpPushing (s.params.bnnn == .pushThenJump) s (BitVec.ofNat 16 (((s.reg 0).toNat + nnn.toNat) % 4096))
  | .opCxnn x nn => { s.setReg x (Config.randomByte s.draws &&& nn) with draws := s.draws + 1 }.advance
  | .opDxyn x y n => ((s.setFB (drawn s x y n).fb).setReg vf (if (drawn s x y n).collide then 1 else 0)).advance
  | .opEx9E x => s.setPC (if s.keyPressed (s.reg x).toNat = some true then s.pc + 4 else s.pc + 2)
  | .opExA1 x => s.setPC (if s.keyPressed (s.reg x).toNat = some false then s.pc + 4 else s.pc + 2)
  | .opFx07 x => (s.setReg x s.dt).advance
  | .opFx0A x =>
    { s with
      v := s.lowestKey.elim s.v fun k => s.v.set x.val (BitVec.ofNat 8 k)
      pc := s.lowestKey.elim s.pc fun _ => s.pc + 2 }
  | .opFx15 x => (s.setDT (s.reg x)).advance
  | .opFx18 x => (s.setST (s.reg x)).advance
  | .opFx1E x => (s.setI (BitVec.ofNat 16 (s.i.toNat + (s.reg x).toNat))).advance
  | .opFx29 x => (s.setI (BitVec.ofNat 16 (fontBase + (s.reg x).toNat * glyphBytes))).advance
  | .opFx33 x => { s with mem := s.mem.store s.i.toNat (bcdDigits (s.reg x)) }.advance
  | .opFx55 x => { s with mem := s.mem.store s.i.toNat (s.v.toList.take (x.val + 1)) }.advance
  | .opFx65 x =>
    { s with v := s.loadRegs s.i.toNat x, i := BitVec.ofNat 16 (s.i.toNat + x.val + 1), pc := s.pc + 2 }

/-- The outcome of a phase that raises the fault, if there is one, and otherwise ends in `t`. -/
def faultOr (f : Option Fault) (t : State) : Result := f.elim (.next t) .fault

@[simp] theorem faultOr_eq_next {f : Option Fault} {t u : State} : faultOr f t = .next u ↔ f = none ∧ t = u := by
  cases f <;> simp [faultOr]

@[simp] theorem faultOr_eq_fault {f : Option Fault} {t : State} {g : Fault} : faultOr f t = .fault g ↔ f = some g := by
  cases f <;> simp [faultOr]

/-! ### The operations with a fault -/

/-- R116: the bounds check of an index-relative access. -/
theorem withIndexRange_eq_faultOr (s t : State) (count : Nat) :
    withIndexRange s count (.next t) = faultOr (rangeFault s count) t := by
  unfold rangeFault
  split
  case isTrue h => exact withIndexRange_past _ h.1 (by omega)
  case isFalse h => exact withIndexRange_fits _ (by omega)

/-- R78, R119. -/
theorem pushAndJump_eq_faultOr (s : State) (target : Word) :
    pushAndJump s target =
      faultOr (if s.sp = 16 then some (.stackOverflow s.pc) else none) (jumpPushing true s target) := by
  split
  case isTrue h => exact pushAndJump_full (congrArg Fin.val h) _
  case isFalse h =>
    have hroom : s.sp.val < 16 := by
      have : s.sp.val ≠ 16 := fun e => h (Fin.ext e)
      omega
    have hset : s.stack.setIfInBounds s.sp.val s.pc = s.stack.set s.sp.val s.pc := by
      ext k hk
      simp [Vector.getElem_setIfInBounds, Vector.getElem_set]
    rw [pushAndJump_room hroom]
    simp only [faultOr, jumpPushing, Option.elim_none, if_true, hset, Nat.min_eq_left (Nat.succ_le_of_lt hroom)]

/-- R76, R120. -/
theorem popAndReturn_eq_faultOr (s : State) :
    popAndReturn s = faultOr (if s.sp = 0 then some (.stackUnderflow s.pc) else none) (completed .op00EE s) := by
  split
  case isTrue h => exact popAndReturn_empty (congrArg Fin.val h)
  case isFalse h => exact popAndReturn_eq_next.2 ⟨fun e => h (Fin.ext e), rfl⟩

/-- R83. -/
theorem execBnnn_eq_faultOr (s : State) (nnn : BitVec 12) :
    execBnnn nnn s = faultOr (faultIn (.opBnnn nnn) s) (completed (.opBnnn nnn) s) := by
  unfold execBnnn faultIn completed
  cases hmode : s.params.bnnn
  case jump => rfl
  case pushThenJump => simpa using pushAndJump_eq_faultOr s _

/-- R96. -/
theorem exec8xyE_eq_faultOr (s : State) (x y : Reg) :
    exec8xyE x y s = faultOr (faultIn (.op8xyE x y) s) (completed (.op8xyE x y) s) := by
  unfold exec8xyE faultIn
  cases s.params.shl
  case unsupported => rfl
  case shiftLeft => rw [State.writeAlu_eq]; rfl

/-- R108, R110. -/
theorem execEx9E_eq_faultOr (s : State) (x : Reg) :
    execEx9E x s = faultOr (if (s.reg x).toNat > 15 then some (.outOfBounds (s.reg x).toNat s.pc) else none)
      (s.setPC (if s.keyPressed (s.reg x).toNat = some true then s.pc + 4 else s.pc + 2)) := by
  unfold execEx9E
  by_cases h : (s.reg x).toNat > 15
  · rw [keyPressed_of_ge s h, if_pos h]
    rfl
  · rw [keyPressed_of_lt s (Nat.lt_succ_of_le (Nat.le_of_not_lt h)), if_neg h]
    simp [State.skipIf_eq, faultOr, State.setPC]

/-- R109, R110. -/
theorem execExA1_eq_faultOr (s : State) (x : Reg) :
    execExA1 x s = faultOr (if (s.reg x).toNat > 15 then some (.outOfBounds (s.reg x).toNat s.pc) else none)
      (s.setPC (if s.keyPressed (s.reg x).toNat = some false then s.pc + 4 else s.pc + 2)) := by
  unfold execExA1
  by_cases h : (s.reg x).toNat > 15
  · rw [keyPressed_of_ge s h, if_pos h]
    rfl
  · rw [keyPressed_of_lt s (Nat.lt_succ_of_le (Nat.le_of_not_lt h)), if_neg h]
    simp [State.skipIf_eq, faultOr, State.setPC]

/-- R106: by rewriting, since `rfl` would run the loop that loads the registers. -/
theorem execFx65_eq_faultOr (s : State) (x : Reg) :
    execFx65 x s = faultOr (rangeFault s (x.val + 1)) (completed (.opFx65 x) s) := by
  rw [execFx65, withIndexRange_eq_faultOr]
  simp only [completed, State.setI, State.advance, State.setPC, State.indexAddr, Nat.add_zero]

/-- R111. -/
theorem execFx0A_eq (s : State) (x : Reg) : execFx0A x s = .next (completed (.opFx0A x) s) := by
  unfold execFx0A completed
  cases s.lowestKey <;> rfl

/-- R91: the flag-producing instructions that always complete. -/
theorem writeAlu_advance (s : State) (op : Byte → Byte → AluOut) (x y : Reg) :
    (s.writeAlu op x y).advance = { s with v := (s.writeAlu op x y).v, pc := s.pc + 2 } :=
  congrArg State.advance (State.writeAlu_eq s op x y)

/-! ### Every instruction -/

theorem exec_eq_faultOr (i : Instr) (s : State) : exec i s = faultOr (faultIn i s) (completed i s) := by
  cases i with
  | op00EE => exact popAndReturn_eq_faultOr s
  | op2nnn => exact pushAndJump_eq_faultOr s _
  | opBnnn nnn => exact execBnnn_eq_faultOr s nnn
  | op3xnn | op5xy0 => exact congrArg _ (skipIf_beq ..)
  | op4xnn | op9xy0 => exact congrArg _ (skipIf_bne ..)
  | op8xy4 | op8xy5 | op8xy6 | op8xy7 => exact congrArg _ (writeAlu_advance ..)
  | op8xyE x y => exact exec8xyE_eq_faultOr s x y
  | opDxyn | opFx33 | opFx55 => exact withIndexRange_eq_faultOr ..
  | opFx65 x => exact execFx65_eq_faultOr s x
  | opEx9E x => exact execEx9E_eq_faultOr s x
  | opExA1 x => exact execExA1_eq_faultOr s x
  | opFx0A x => exact execFx0A_eq s x
  | _ => rfl

theorem exec_eq_next {i : Instr} {s t : State} : exec i s = .next t ↔ faultIn i s = none ∧ completed i s = t := by
  rw [exec_eq_faultOr, faultOr_eq_next]

theorem exec_eq_fault {i : Instr} {s : State} {f : Fault} : exec i s = .fault f ↔ faultIn i s = some f := by
  rw [exec_eq_faultOr, faultOr_eq_fault]

/-- Settles O11: the fault and the next state are the two arms of the closed form. -/
theorem execFaultsExactlyWhereItsRuleSays : Obligations.ExecFaultsExactlyWhereItsRuleSays :=
  fun _ _ => ⟨fun _ => exec_eq_fault.2, fun h => ⟨_, exec_eq_next.2 ⟨h, rfl⟩⟩⟩

end Sys2Proof
end

section
/-! What the execute phase leaves unchanged (10_state.md R15 to R26; 20_memory.md R42), read off the closed form field
by field. (`rfl` would compare the registers Fx65 loads before the field in question, so its case is written out.) -/

namespace Sys2Proof

open Machine

/-! ### Memory -/

theorem outside_of_ne_indexAddr {s : State} {a n : Nat} (h : ∀ k, k < n → a ≠ s.indexAddr k) :
    a < s.i.toNat ∨ s.i.toNat + n ≤ a := by
  by_contra hin
  have hne : a ≠ s.i.toNat + (a - s.i.toNat) := h (a - s.i.toNat) (by omega)
  omega

theorem read_completed_outside {i : Instr} {s : State} {a : Nat}
    (h : a < s.i.toNat ∨ s.i.toNat + storeCount i ≤ a) : (completed i s).mem.read a = s.mem.read a := by
  cases i with
  | opFx33 x => exact Memory.read_store_outside _ _ h
  | opFx55 x => exact Memory.read_store_outside _ _ (by rwa [length_take_regs])
  | opFx65 => simp only [completed]
  | _ => rfl

/-- Settles O13: the two instructions that store leave the addresses outside their bytes alone, and the others do not
touch memory. -/
theorem memoryUnchangedOutsideStores : Obligations.MemoryUnchangedOutsideStores := by
  intro i s t h a ha
  obtain ⟨-, rfl⟩ := exec_eq_next.1 h
  exact read_completed_outside (outside_of_ne_indexAddr ha)

/-! ### General registers -/

/-- R91: whatever the write order, only V[x] and V[15] are written. -/
theorem reg_writeAlu_other (s : State) (op : Byte → Byte → AluOut) {x r : Reg} (y : Reg) (hx : r ≠ x) (hvf : r ≠ 15) :
    (s.writeAlu op x y).reg r = s.reg r := by
  rw [reg_writeAlu]
  cases s.params.vfOrder <;> simp [hx, hvf]

/-- Settles O14: each instruction writes its own registers through one of the register writes. -/
theorem registersUnchangedUnlessWritten : Obligations.RegistersUnchangedUnlessWritten := by
  intro i s t r h hr
  obtain ⟨-, rfl⟩ := exec_eq_next.1 h
  cases i with
  | op6xnn | op7xnn | op8xy0 | op8xy1 | op8xy2 | op8xy3 | opCxnn | opFx07 | opDxyn =>
    exact State.reg_setReg_other _ (ne_of_beq_false hr) _
  | op8xy4 | op8xy5 | op8xy6 | op8xy7 | op8xyE =>
    obtain ⟨hx, hvf⟩ := Bool.or_eq_false_iff.1 hr
    exact reg_writeAlu_other s _ _ (ne_of_beq_false hx) (ne_of_beq_false hvf)
  | opFx0A x =>
    unfold completed
    cases s.lowestKey with
    | none => rfl
    | some k => exact State.reg_setReg_other s (ne_of_beq_false hr) _
  | opFx65 x => exact (getElem_loadRegs ..).trans (if_neg (of_decide_eq_false hr))
  | _ => rfl

/-! ### The special registers -/

@[simp] theorem completed_key (i : Instr) (s : State) : (completed i s).key = s.key := by
  unfold completed
  split <;> rfl

@[simp] theorem completed_params (i : Instr) (s : State) : (completed i s).params = s.params := by
  unfold completed
  split <;> rfl

@[simp] theorem completed_audio (i : Instr) (s : State) : (completed i s).audio = s.audio := by
  unfold completed
  split <;> rfl

@[simp] theorem completed_dt (i : Instr) (s : State) : (completed i s).dt = dtAfter i s := by
  unfold completed
  split <;> rfl

@[simp] theorem completed_st (i : Instr) (s : State) : (completed i s).st = stAfter i s := by
  unfold completed
  split <;> rfl

theorem completed_i {i : Instr} (h : mayWriteI i = false) (s : State) : (completed i s).i = s.i := by
  cases i with
  | opAnnn | opFx1E | opFx29 | opFx65 => cases h
  | _ => rfl

theorem completed_fb {i : Instr} (h : drawsOnScreen i = false) (s : State) : (completed i s).fb = s.fb := by
  cases i with
  | op00E0 | opDxyn => cases h
  | opFx65 => simp only [completed]
  | _ => rfl

theorem completed_redraw_same {i : Instr} (h : drawsOnScreen i = false) (s : State) :
    (completed i s).redraw = s.redraw := by
  cases i with
  | op00E0 | opDxyn => cases h
  | opFx65 => simp only [completed]
  | _ => rfl

theorem completed_redraw {i : Instr} (h : drawsOnScreen i = true) (s : State) : (completed i s).redraw = true := by
  cases i with
  | op00E0 | opDxyn => rfl
  | _ => cases h

theorem completed_draws {i : Instr} (h : ∀ x nn, i ≠ .opCxnn x nn) (s : State) : (completed i s).draws = s.draws := by
  cases i with
  | opCxnn x nn => exact absurd rfl (h x nn)
  | opFx65 => simp only [completed]
  | _ => rfl

/-- Settles O15: field by field of the closed form. -/
theorem specialRegistersUnchangedUnlessWritten : Obligations.SpecialRegistersUnchangedUnlessWritten := by
  intro i s t h
  obtain ⟨-, rfl⟩ := exec_eq_next.1 h
  exact ⟨(completed_i · s), fun hd => ⟨completed_fb hd s, completed_redraw_same hd s⟩, (completed_redraw · s),
    completed_dt i s, completed_st i s, completed_key i s, completed_params i s, completed_audio i s,
    (completed_draws · s)⟩

/-! ### The call stack -/

theorem jumpPushing_sp {s : State} (hroom : s.sp ≠ 16) (target : Word) :
    (jumpPushing true s target).sp.val = s.sp.val + 1 := by
  have hne : s.sp.val ≠ 16 := fun e => hroom (Fin.ext e)
  exact Nat.min_eq_left (by omega)

theorem jumpPushing_stack (s : State) (target : Word) (k : Fin 16) :
    (jumpPushing true s target).stack[k.val] = if k.val = s.sp.val then s.pc else s.stack[k.val] := by
  simp only [jumpPushing, if_true, Vector.getElem_setIfInBounds, eq_comm]

/-- An instruction that pushes is a jump that pushes, and faults when the stack is full (R78, R83, R119). -/
theorem completed_of_pushesIn {i : Instr} {s : State} (h : pushesIn s.params i = true) (hf : faultIn i s = none) :
    s.sp ≠ 16 ∧ ∃ target, completed i s = jumpPushing true s target := by
  cases i with
  | op2nnn nnn => exact ⟨by simpa [faultIn] using hf, _, rfl⟩
  | opBnnn nnn =>
    have hmode : s.params.bnnn = .pushThenJump := beq_iff_eq.1 h
    exact ⟨by simpa [faultIn, hmode] using hf, _, by rw [completed, hmode]; rfl⟩
  | _ => cases h

theorem completed_stack {i : Instr} {s : State} (h : pushesIn s.params i = false) :
    (completed i s).stack = s.stack := by
  cases i with
  | op2nnn => cases h
  | opBnnn nnn => exact if_neg (Bool.eq_false_iff.1 h)
  | opFx65 => simp only [completed]
  | _ => rfl

theorem completed_sp {i : Instr} {s : State} (h : pushesIn s.params i = false) (hret : i ≠ .op00EE) :
    (completed i s).sp = s.sp := by
  cases i with
  | op2nnn => cases h
  | opBnnn nnn => exact if_neg (Bool.eq_false_iff.1 h)
  | op00EE => exact absurd rfl hret
  | opFx65 => simp only [completed]
  | _ => rfl

/-- R76: a return happens at a nonzero depth only. -/
theorem completed_op00EE_sp {s : State} (h : faultIn .op00EE s = none) :
    (completed .op00EE s).sp.val + 1 = s.sp.val := by
  have hne : s.sp ≠ 0 := by simpa [faultIn] using h
  exact Nat.sub_add_cancel (Nat.pos_of_ne_zero fun e => hne (Fin.ext e))

/-- Settles O16: a push is the pushing jump, a return lowers SP, and everything else leaves both. -/
theorem callStackUnchangedUnlessPushedOrPopped : Obligations.CallStackUnchangedUnlessPushedOrPopped := by
  intro i s t h
  obtain ⟨hf, rfl⟩ := exec_eq_next.1 h
  refine ⟨fun hpush => ?_, fun hret => ?_, completed_stack, completed_sp⟩
  · obtain ⟨hroom, target, heq⟩ := completed_of_pushesIn hpush hf
    rw [heq]
    exact ⟨jumpPushing_sp hroom target, jumpPushing_stack s target⟩
  · subst hret
    exact completed_op00EE_sp hf

end Sys2Proof
end

section
/-! The step (40_instruction_cycle.md R67 to R71) over the closed form of the execute phase: what it ends in, and what
it makes of the timers, the audio output, the key latch and the parameters. -/

namespace Sys2Proof

open Machine

/-! ### How a step ends -/

theorem step_of_fetch_error {s : State} {f : Fault} (h : fetchWord s = .error f) : step s = .fault f := by
  simp only [step, h]

theorem step_of_exec_fault {s : State} {w : Word} {i : Instr} {f : Fault} (hw : fetchWord s = .ok w)
    (hi : decodeWord s.params w = some i) (hf : exec i s = .fault f) : step s = .fault f := by
  rw [step_of_decoded hw hi, hf]

/-- The whole step of a decoded instruction. -/
theorem step_eq_faultOr {s : State} {w : Word} {i : Instr} (hw : fetchWord s = .ok w)
    (hi : decodeWord s.params w = some i) : step s = faultOr (faultIn i s) (tick i s (completed i s)) := by
  rw [step_of_decoded hw hi, exec_eq_faultOr]
  cases faultIn i s <;> rfl

/-- A step that answers a next state ran a decoded instruction that raised no fault. -/
theorem step_eq_next_completed {s t : State} (h : step s = .next t) :
    ∃ w i, fetchWord s = .ok w ∧ decodeWord s.params w = some i ∧ faultIn i s = none ∧
      tick i s (completed i s) = t := by
  obtain ⟨w, i, u, hw, hi, hu, ht⟩ := step_eq_next.1 h
  obtain ⟨hf, rfl⟩ := exec_eq_next.1 hu
  exact ⟨w, i, hw, hi, hf, ht⟩

/-- R67, R68: the tick of a step whose instruction is known. -/
theorem eq_tick_of_step {s t : State} {w : Word} {i : Instr} (hw : fetchWord s = .ok w)
    (hi : decodeWord s.params w = some i) (h : step s = .next t) : t = tick i s (completed i s) := by
  rw [step_eq_faultOr hw hi, faultOr_eq_next] at h
  exact h.2.symm

/-! ### The faults of a step -/

/-- One of the four faults a step can raise, with the PC of the step in its record (R115, R123). -/
def StepFault (s : State) (f : Fault) : Prop :=
  (∃ w, f = .unsupportedOpcode w s.pc) ∨ (∃ a, f = .outOfBounds a s.pc) ∨ f = .stackOverflow s.pc ∨
    f = .stackUnderflow s.pc

theorem StepFault.pcOf_eq {s : State} {f : Fault} (h : StepFault s f) : f.pcOf = s.pc := by
  obtain ⟨w, rfl⟩ | ⟨a, rfl⟩ | rfl | rfl := h <;> rfl

theorem eq_of_ite_eq_some {c : Prop} [Decidable c] {f g : Fault} (h : (if c then some g else none) = some f) : f = g :=
  (Option.some.inj (Option.ite_none_right_eq_some.1 h).2).symm

theorem stepFault_of_faultIn {i : Instr} {s : State} {f : Fault} (h : faultIn i s = some f) : StepFault s f := by
  cases i with
  | op00EE => exact .inr (.inr (.inr (eq_of_ite_eq_some h)))
  | op2nnn | opBnnn => exact .inr (.inr (.inl (eq_of_ite_eq_some h)))
  | op8xyE => exact .inl ⟨_, eq_of_ite_eq_some h⟩
  | opDxyn | opFx33 | opFx55 | opFx65 | opEx9E | opExA1 => exact .inr (.inl ⟨_, eq_of_ite_eq_some h⟩)
  | _ => cases h

theorem stepFault_of_fetch_error {s : State} {f : Fault} (h : fetchWord s = .error f) : StepFault s f := by
  unfold fetchWord at h
  split at h
  · cases h
    exact .inr (.inl ⟨_, rfl⟩)
  · split at h
    · cases h
      exact .inr (.inl ⟨_, rfl⟩)
    · cases h

theorem step_next_or_stepFault (s : State) : (∃ t, step s = .next t) ∨ ∃ f, step s = .fault f ∧ StepFault s f := by
  cases hw : fetchWord s with
  | error f => exact .inr ⟨f, step_of_fetch_error hw, stepFault_of_fetch_error hw⟩
  | ok w =>
    cases hi : decodeWord s.params w with
    | none => exact .inr ⟨_, step_of_undecoded hw hi, .inl ⟨w, rfl⟩⟩
    | some i =>
      rw [step_eq_faultOr hw hi]
      cases hf : faultIn i s with
      | none => exact .inl ⟨_, rfl⟩
      | some f => exact .inr ⟨f, rfl, stepFault_of_faultIn hf⟩

/-- Settles O10: the faults of fetch, decode and execute, one by one. -/
theorem stepEndsInNextOrOneOfFourFaults : Obligations.StepEndsInNextOrOneOfFourFaults :=
  fun s => (step_next_or_stepFault s).imp_right fun ⟨f, hf, hkind⟩ => ⟨f, hf, hkind.pcOf_eq, hkind⟩

/-! ### The timers and the audio output -/

/-- Settles O8: the tick decrements what the execute phase left. -/
theorem timersTickOncePerStep : Obligations.TimersTickOncePerStep := by
  intro s t w i hw hi h
  rw [eq_tick_of_step hw hi h, ← completed_dt, ← completed_st]
  exact ⟨tickTimer_toNat _, tickTimer_toNat _⟩

theorem activatesSound_eq_true {i : Instr} {s : State} :
    activatesSound i s = true ↔ ∃ x, i = .opFx18 x ∧ s.reg x ≠ 0 := by
  cases i <;> simp [activatesSound]

theorem audioBit_perActiveCycle {s : State} (h : s.params.audio = .perActiveCycle) (i : Instr) (t : State) :
    audioBit i s t = true ↔ t.st ≠ 0 := by
  simp [audioBit, h]

theorem audioBit_perActivation {s : State} (h : s.params.audio = .perActivation) (i : Instr) (t : State) :
    audioBit i s t = true ↔ ∃ x, i = .opFx18 x ∧ s.reg x ≠ 0 := by
  simp only [audioBit, h, activatesSound_eq_true]

/-- Settles O9: the tick takes the audio bit from ST as the execute phase left it, or from the instruction. -/
theorem audioBitOfAStep : Obligations.AudioBitOfAStep := by
  intro s t w i hw hi h
  rw [eq_tick_of_step hw hi h, ← completed_st]
  exact ⟨fun hmode => audioBit_perActiveCycle hmode i _, fun hmode => audioBit_perActivation hmode i _⟩

theorem tickTimer_eq (b : Byte) : tickTimer b = if b ≠ 0 then b - 1 else b := by
  rw [tickTimer, ite_not]
  split
  · next h => exact h.symm
  · rfl

theorem tick_eq (i : Instr) (s t : State) : tick i s t = { t with
    audio := audioBit i s t
    st := if t.st ≠ 0 then t.st - 1 else t.st
    dt := if t.dt ≠ 0 then t.dt - 1 else t.dt } := by
  rw [← tickTimer_eq, ← tickTimer_eq]
  rfl

/-- Settles O7: fetch, decode and execute each end the step with their fault, and the tick follows. -/
theorem stepRunsTheDecodedInstruction : Obligations.StepRunsTheDecodedInstruction := by
  intro s
  refine ⟨fun h => step_of_fetch_error (fetchWord_past_end h), fun h => step_of_fetch_error (fetchWord_at_last h),
    fun hpc w hw => ?_⟩
  have hfetch : fetchWord s = .ok w := by
    rw [fetchWord_ok hpc]
    exact congrArg _ (BitVec.eq_of_toNat_eq ((bigEndian_toNat _ _).trans hw.symm))
  refine ⟨step_of_undecoded hfetch, fun i hi => ⟨fun f => step_of_exec_fault hfetch hi, fun t ht => ?_⟩⟩
  refine ⟨audioBit i s t, ?_, fun hmode => audioBit_perActiveCycle hmode i t,
    fun hmode => audioBit_perActivation hmode i t⟩
  rw [step_of_exec_next hfetch hi ht, tick_eq]

/-- Settles O17: neither the execute phase nor the tick writes them. -/
theorem stepKeepsKeysAndParameters : Obligations.StepKeepsKeysAndParameters := by
  intro s t h
  obtain ⟨w, i, -, -, -, rfl⟩ := step_eq_next_completed h
  exact ⟨completed_key i s, completed_params i s⟩

end Sys2Proof
end

section
/-! The invariant of the engine (10_state.md R19; 40_instruction_cycle.md R66): construction meets it, and every step
and every action of the host keeps it. -/

namespace Sys2Proof

open Machine

/-! ### The execute phase -/

theorem fits_of_rangeFault_eq_none {s : State} {n : Nat} (h : rangeFault s (n + 1) = none) :
    s.i.toNat + (n + 1) ≤ memSize := by
  have hin : ¬(0 < n + 1 ∧ s.i.toNat + (n + 1 - 1) > 0xFFF) := by simpa [rangeFault] using h
  simp only [memSize]
  omega

theorem completed_mem_wf {i : Instr} {s : State} (hwf : s.mem.wf) (hf : faultIn i s = none) :
    (completed i s).mem.wf := by
  cases i with
  | opFx33 => exact Memory.store_wf _ hwf (fits_of_rangeFault_eq_none hf)
  | opFx55 => exact Memory.store_wf _ hwf (by rw [length_take_regs]; exact fits_of_rangeFault_eq_none hf)
  | opFx65 => simpa only [completed] using hwf
  | _ => exact hwf

/-- R66: PC goes at most 4 bytes past an instruction that was fetched, or 2 bytes past a stack entry. -/
theorem completed_pc_le {i : Instr} {s : State} (hpc : s.pc.toNat ≤ 0xFFE)
    (hstack : ∀ k : Fin 16, s.stack[k.val].toNat ≤ 0xFFE) (hf : faultIn i s = none) :
    (completed i s).pc.toNat ≤ 0x1002 := by
  have hnext : (s.pc + 2).toNat ≤ 0x1002 := by bv_omega
  have hskip : (s.pc + 4).toNat ≤ 0x1002 := by bv_omega
  have h := programCounterUpdates i s _ (exec_eq_next.2 ⟨hf, rfl⟩)
  cases i with
  | op00EE =>
    obtain ⟨k, -, hk⟩ := h
    have := hstack k
    rw [hk]
    bv_omega
  | op1nnn nnn | op2nnn nnn | opBnnn nnn =>
    have := nnn.isLt
    simp only at h
    omega
  | op3xnn | op4xnn | op5xy0 | op9xy0 =>
    simp only at h
    rw [h]
    split <;> assumption
  | opEx9E | opExA1 =>
    obtain ⟨k, -, hk⟩ := h
    rw [hk]
    split <;> assumption
  | opFx0A =>
    simp only at h
    split at h <;> rw [h]
    · exact hnext
    · omega
  | _ =>
    simp only at h
    rwa [h]

/-- R21, R78: what a push leaves on the stack is the address of an instruction that was fetched. -/
theorem completed_stack_le {i : Instr} {s : State} (hpc : s.pc.toNat ≤ 0xFFE)
    (hstack : ∀ k : Fin 16, s.stack[k.val].toNat ≤ 0xFFE) (hf : faultIn i s = none) (k : Fin 16) :
    (completed i s).stack[k.val].toNat ≤ 0xFFE := by
  cases hpush : pushesIn s.params i with
  | false =>
    rw [completed_stack hpush]
    exact hstack k
  | true =>
    obtain ⟨-, target, heq⟩ := completed_of_pushesIn hpush hf
    rw [heq, jumpPushing_stack]
    split
    · exact hpc
    · exact hstack k

/-- Settles O18: a step is fetched at most at 0xFFE, and the tick writes no part of the invariant. -/
theorem stepKeepsTheInvariant : Obligations.StepKeepsTheInvariant := by
  intro s t hinv h
  obtain ⟨w, i, hw, -, hf, rfl⟩ := step_eq_next_completed h
  have hpc := (fetchWord_eq_ok.1 hw).1
  exact ⟨completed_mem_wf hinv.memory_canonical hf, completed_pc_le hpc hinv.stack_fetchable hf,
    completed_stack_le hpc hinv.stack_fetchable hf⟩

/-! ### Construction -/

theorem wf_nil : Memory.wf [] := ⟨List.Pairwise.nil, nofun⟩

theorem construct_inv (p : Params) (font : Vector Byte 80) : (State.construct p font).Inv where
  memory_canonical := Memory.store_wf _ wf_nil (by rw [Vector.length_toList]; decide)
  pc_bounded := (by decide : (0x200 : Word).toNat ≤ 0x1002)
  stack_fetchable k := by simp [State.construct, State.reset]

theorem construct_default : State.construct defaultParams defaultFont = State.reset := by
  have hmem : Memory.store [] fontBase defaultFont.toList = [] := by decide
  rw [State.construct, hmem]
  rfl

/-- Settles O19: the font is the only thing stored, and the default font is what an unlisted byte reads as. -/
theorem constructionMeetsTheInvariant : Obligations.ConstructionMeetsTheInvariant :=
  ⟨construct_default ▸ construct_inv defaultParams defaultFont, construct_default, construct_inv⟩

/-! ### The host -/

theorem load_eq_ok {s t : State} {bytes : List Byte} :
    s.load bytes = .ok t ↔ progBase + bytes.length ≤ memSize ∧ { s with mem := s.mem.store progBase bytes } = t := by
  unfold State.load
  split
  · next h => simp [Nat.not_le.2 h]
  · next h => simp [Nat.not_lt.1 h]

theorem load_inv {s t : State} {bytes : List Byte} (hinv : s.Inv) (h : s.load bytes = .ok t) : t.Inv := by
  obtain ⟨hfits, rfl⟩ := load_eq_ok.1 h
  exact ⟨Memory.store_wf _ hinv.memory_canonical hfits, hinv.pc_bounded, hinv.stack_fetchable⟩

/-- R122, R137: the engine after a load is the loaded one, or the one before. -/
theorem loadAction_engine {c d : Session} {bytes : List Byte} {r : Reply} (h : c.loadAction bytes = some (r, d)) :
    d.engine = c.engine ∨ c.engine.load bytes = .ok d.engine := by
  unfold Session.loadAction at h
  split at h
  · split at h
    · next hload => cases h; exact .inr hload
    · cases h; exact .inl rfl
  · cases h
  · cases h

/-- R69, R122: what a step action can do. -/
theorem stepAction_eq_some {c d : Session} {r : Reply} (h : c.stepAction = some (r, d)) :
    (∃ t, step c.engine = .next t ∧ d = ⟨t, .stepping⟩) ∨ ∃ f, step c.engine = .fault f ∧ d = ⟨c.engine, .over f⟩ := by
  unfold Session.stepAction at h
  split at h
  · cases h
  all_goals
    split at h
    · next hstep => cases h; exact .inl ⟨_, hstep, rfl⟩
    · next hstep => cases h; exact .inr ⟨_, hstep, rfl⟩
    · cases h

/-- Settles O20: load and step keep the invariant; no other action touches what it speaks of. -/
theorem hostActionsKeepTheInvariant : Obligations.HostActionsKeepTheInvariant := by
  intro c d a r hinv h
  cases a with
  | load bytes =>
    obtain heq | hload := loadAction_engine h
    · rwa [heq]
    · exact load_inv hinv hload
  | step =>
    obtain ⟨t, hstep, rfl⟩ | ⟨f, -, rfl⟩ := stepAction_eq_some h
    · exact stepKeepsTheInvariant _ _ hinv hstep
    · exact hinv
  | setKeys keys =>
    cases h
    exact ⟨hinv.memory_canonical, hinv.pc_bounded, hinv.stack_fetchable⟩
  | takeRedrawFlag =>
    cases h
    exact ⟨hinv.memory_canonical, hinv.pc_bounded, hinv.stack_fetchable⟩
  | _ =>
    cases h
    exact hinv

end Sys2Proof
end

section
/-! What a program cannot observe (10_state.md R23, R26, R30): two states that differ only in ST, REDRAW and the audio
output, or only in stack entries at or above SP, run through the closed form of a step side by side. -/

namespace Sys2Proof

open Machine

/-! ### Two steps side by side -/

/-- Two states that fetch the same word and fault alike step alike, up to what their next states are related by. -/
theorem sameOutcome_step {rel : State → State → Prop} {s t : State} (hfetch : fetchWord s = fetchWord t)
    (hparams : s.params = t.params) (hpc : s.pc = t.pc) (hfault : ∀ i, faultIn i s = faultIn i t)
    (hnext : ∀ i, faultIn i s = none → rel (tick i s (completed i s)) (tick i t (completed i t))) :
    SameOutcome rel (step s) (step t) := by
  cases hw : fetchWord s with
  | error f =>
    rw [step_of_fetch_error hw, step_of_fetch_error (hfetch ▸ hw)]
    exact rfl
  | ok w =>
    cases hi : decodeWord s.params w with
    | none =>
      rw [step_of_undecoded hw hi, step_of_undecoded (hfetch ▸ hw) (hparams ▸ hi), hpc]
      exact rfl
    | some i =>
      rw [step_eq_faultOr hw hi, step_eq_faultOr (hfetch ▸ hw) (hparams ▸ hi), ← hfault i]
      cases hf : faultIn i s with
      | none => exact hnext i hf
      | some f => exact rfl

/-- R91: the flag-producing instructions read the registers and the write order, and nothing else. -/
theorem writeAlu_v_congr (s t : State) (hv : s.v = t.v) (hparams : s.params = t.params) (op : Byte → Byte → AluOut)
    (x y : Reg) : (s.writeAlu op x y).v = (t.writeAlu op x y).v := by
  have hreg : ∀ r, s.reg r = t.reg r := fun r => congrArg (fun v : Vector Byte 16 => v[r.val]) hv
  refine State.v_ext fun r => ?_
  rw [reg_writeAlu, reg_writeAlu, hparams, hreg, hreg, hreg]

/-! ### ST, REDRAW and the audio output -/

/-- What reads none of the outputs is the same in two states that differ only in these. -/
theorem congr_of_hideOutputs {α : Type} {g : State → α} (hg : ∀ s, g s.hideOutputs = g s) {s t : State}
    (h : s.hideOutputs = t.hideOutputs) : g s = g t := by
  rw [← hg s, h, hg t]

theorem faultIn_hideOutputs (i : Instr) (s : State) : faultIn i s.hideOutputs = faultIn i s := by cases i <;> rfl

theorem writeAlu_v_hideOutputs (s : State) (op : Byte → Byte → AluOut) (x y : Reg) :
    (s.hideOutputs.writeAlu op x y).v = (s.writeAlu op x y).v :=
  writeAlu_v_congr s.hideOutputs s rfl rfl op x y

/-- Up to the outputs themselves, no instruction's closed form reads one. -/
theorem completed_hideOutputs (i : Instr) (s : State) :
    (completed i s.hideOutputs).hideOutputs = (completed i s).hideOutputs := by
  cases i with
  | op8xy4 | op8xy5 | op8xy6 | op8xy7 | op8xyE =>
    simp only [completed, writeAlu_v_hideOutputs]
    rfl
  | _ => rfl

theorem tick_hideOutputs (i : Instr) (s t : State) :
    (tick i s t).hideOutputs = { t.hideOutputs with dt := tickTimer t.hideOutputs.dt } := rfl

/-- Settles O21: neither fetch, decode nor a fault reads an output, nor does what a step leaves in the other fields. -/
theorem outputsAreInvisibleToPrograms : Obligations.OutputsAreInvisibleToPrograms := by
  intro s t h
  refine sameOutcome_step (congr_of_hideOutputs (fun _ => rfl) h) (congr_of_hideOutputs (fun _ => rfl) h)
    (congr_of_hideOutputs (fun _ => rfl) h) (fun i => congr_of_hideOutputs (faultIn_hideOutputs i) h) fun i _ => ?_
  have hcompleted := congr_of_hideOutputs (g := fun s => (completed i s).hideOutputs) (completed_hideOutputs i) h
  rw [tick_hideOutputs, tick_hideOutputs, hcompleted]

/-! ### Stack entries at or above SP -/

section

variable {s : State} {stack : Vector Word 16}

theorem faultIn_with_stack (i : Instr) : faultIn i { s with stack := stack } = faultIn i s := by cases i <;> rfl

theorem writeAlu_v_with_stack (op : Byte → Byte → AluOut) (x y : Reg) :
    ({ s with stack := stack }.writeAlu op x y).v = (s.writeAlu op x y).v :=
  writeAlu_v_congr { s with stack := stack } s rfl rfl op x y

/-- No instruction but a return reads a stack entry. -/
theorem completed_with_stack {i : Instr} (h : i ≠ .op00EE) :
    completed i { s with stack := stack } =
      { completed i s with stack := (completed i { s with stack := stack }).stack } := by
  cases i with
  | op00EE => exact absurd rfl h
  | op8xy4 | op8xy5 | op8xy6 | op8xy7 | op8xyE => simp only [completed, writeAlu_v_with_stack]
  | _ => rfl

/-- R30: a return reads the entry below SP, and the entries below the new SP are old ones or the one pushed. -/
theorem sameBelowSP_completed {i : Instr} (hf : faultIn i s = none)
    (hbelow : ∀ k : Fin 16, k.val < s.sp.val → stack[k.val] = s.stack[k.val]) :
    (completed i s).SameBelowSP (completed i { s with stack := stack }) := by
  by_cases hret : i = .op00EE
  · subst hret
    have hsp := completed_op00EE_sp hf
    have htop : stack[s.sp.val - 1] = s.stack[s.sp.val - 1] := hbelow ⟨s.sp.val - 1, by omega⟩ (by simp only; omega)
    refine ⟨?_, fun k hk => hbelow k (by omega)⟩
    simp only [completed, htop]
  · refine ⟨completed_with_stack hret, fun k hk => ?_⟩
    cases hpush : pushesIn s.params i with
    | false =>
      rw [completed_sp hpush hret] at hk
      rw [completed_stack hpush, completed_stack (s := { s with stack := stack }) hpush]
      exact hbelow k hk
    | true =>
      obtain ⟨hroom, target, heq⟩ := completed_of_pushesIn hpush hf
      obtain ⟨-, target', heq'⟩ := completed_of_pushesIn (s := { s with stack := stack }) hpush
        ((faultIn_with_stack i).trans hf)
      rw [heq, jumpPushing_sp hroom] at hk
      rw [heq, heq', jumpPushing_stack, jumpPushing_stack]
      split
      · rfl
      · next hne => exact hbelow k (by simp only at hne; omega)

end

/-- The tick reads no stack entry. -/
theorem sameBelowSP_tick (i : Instr) {s t u v : State} (hst : s.SameBelowSP t) (huv : u.SameBelowSP v) :
    (tick i s u).SameBelowSP (tick i t v) := by
  obtain ⟨hs, -⟩ := hst
  obtain ⟨hu, hbelow⟩ := huv
  refine ⟨?_, hbelow⟩
  rw [hs, hu]
  rfl

/-- Settles O22: the step of a state with another stack ends with another stack, the same below SP. -/
theorem stackAboveSPIsInvisible : Obligations.StackAboveSPIsInvisible := by
  intro s t h
  obtain ⟨stack, rfl⟩ : ∃ stack, t = { s with stack := stack } := ⟨_, h.1⟩
  refine sameOutcome_step rfl rfl rfl (fun i => (faultIn_with_stack i).symm) fun i hf => ?_
  exact sameBelowSP_tick i h (sameBelowSP_completed hf h.2)

end Sys2Proof
end

section
/-! Dxyn (41_display.md R73 to R75): the drawing loops as the closed form `spriteBit`, and the same sprite drawn
twice. -/

namespace Sys2Proof

open Machine

/-! ### What one draw leaves -/

section

variable (s : State) (x y : Reg) (n : Fin 16)

/-- Whether the sprite of Dxyn has a 1 on pixel (r, c) (R73, R74). -/
def drawnBit (r : Fin 32) (c : Fin 64) : Bool :=
  spriteBit s.mem s.i.toNat ((s.reg x).toNat % 64) ((s.reg y).toNat % 32) n.val r c

/-- Drawing starts with no collision. -/
theorem drawn_spec :
    (∀ r c, (drawn s x y n).pixel r c = (s.fb[r.val][c.val] ^^ drawnBit s x y n r c)) ∧
      ((drawn s x y n).collide = true ↔
        false = true ∨ ∃ r c, s.fb[r.val][c.val] = true ∧ drawnBit s x y n r c = true) :=
  Blit.sprite_spec ⟨s.fb, false⟩ s.mem s.i.toNat (Nat.mod_lt _ (by decide)) (Nat.mod_lt _ (by decide)) n.val (by omega)

theorem drawn_pixel (r : Fin 32) (c : Fin 64) :
    (drawn s x y n).fb[r.val][c.val] = (s.fb[r.val][c.val] ^^ drawnBit s x y n r c) :=
  (drawn_spec s x y n).1 r c

theorem drawn_collide :
    (drawn s x y n).collide = true ↔
      ∃ (r : Fin 32) (c : Fin 64), s.fb[r.val][c.val] = true ∧ drawnBit s x y n r c = true :=
  (drawn_spec s x y n).2.trans (or_iff_right Bool.false_ne_true)

/-- R73: VF is the collision bit. -/
theorem completed_opDxyn_vf :
    (completed (.opDxyn x y n) s).reg 15 = if (drawn s x y n).collide = true then 1 else 0 :=
  State.reg_setReg_same ..

theorem completed_opDxyn_vf_eq_one :
    (completed (.opDxyn x y n) s).reg 15 = 1 ↔ (drawn s x y n).collide = true := by
  rw [completed_opDxyn_vf]
  cases (drawn s x y n).collide <;> decide

theorem completed_opDxyn_eq : completed (.opDxyn x y n) s =
    { s with
      fb := (completed (.opDxyn x y n) s).fb
      redraw := true
      v := s.v.set 15 ((completed (.opDxyn x y n) s).reg 15)
      pc := s.pc + 2 } := by
  rw [completed_opDxyn_vf]
  rfl

/-- R75: the bounds check is on the n sprite bytes, so with n = 0 it always passes. -/
theorem exec_opDxyn_fits (h : n.val = 0 ∨ s.i.toNat + n.val ≤ 0x1000) :
    exec (.opDxyn x y n) s = .next (completed (.opDxyn x y n) s) :=
  withIndexRange_fits _ h

end

/-- Settles O24: the drawing loops are the closed form `spriteBit`, and the collision bit goes to VF. -/
theorem drawSprite : Obligations.DrawSprite := by
  refine ⟨decodesAs_opDxyn, fun s x y n => ⟨fun hfits => ⟨_, exec_opDxyn_fits s x y n hfits, drawn_pixel s x y n,
    fun hmeet => ?_, fun hmiss => ?_, completed_opDxyn_eq s x y n⟩, withIndexRange_past _⟩⟩
  · exact (completed_opDxyn_vf_eq_one s x y n).2 ((drawn_collide s x y n).2 hmeet)
  · rw [completed_opDxyn_vf, if_neg]
    rw [drawn_collide]
    rintro ⟨r, c, hlit, hbit⟩
    exact Bool.false_ne_true ((hmiss r c hlit).symm.trans hbit)

/-! ### Drawing twice -/

theorem framebuffer_ext {f g : Framebuffer} (h : ∀ (r : Fin 32) (c : Fin 64), f[r.val][c.val] = g[r.val][c.val]) :
    f = g :=
  Vector.ext fun r hr => Vector.ext fun c hc => h ⟨r, hr⟩ ⟨c, hc⟩

/-- R73: neither the coordinates nor the sprite's bytes are changed by drawing it, when x and y are not 15. -/
theorem drawnBit_completed {s : State} {x y : Reg} (hx : x ≠ 15) (hy : y ≠ 15) (n : Fin 16) :
    drawnBit (completed (.opDxyn x y n) s) x y n = drawnBit s x y n := by
  have hregx : (completed (.opDxyn x y n) s).reg x = s.reg x := State.reg_setReg_other _ hx _
  have hregy : (completed (.opDxyn x y n) s).reg y = s.reg y := State.reg_setReg_other _ hy _
  funext r c
  rw [drawnBit, hregx, hregy]
  rfl

theorem exists_bit_of_ne_zero {b : Byte} (h : b ≠ 0) : ∃ k, k < 8 ∧ b.getLsbD k = true := by
  by_contra hnone
  push Not at hnone
  refine h (BitVec.eq_of_getLsbD_eq fun k hk => ?_)
  simpa using hnone k hk

/-- R74: a sprite has a lit pixel exactly when one of its bytes is not 0. -/
theorem exists_spriteBit_iff (m : Memory) (a : Nat) {cx cy n : Nat} (hcx : cx < 64) (hcy : cy < 32) (hn : n ≤ 32) :
    (∃ (r : Fin 32) (c : Fin 64), spriteBit m a cx cy n r c = true) ↔ ∃ k, k < n ∧ m.read (a + k) ≠ 0 := by
  simp only [spriteBit_eq, Bool.and_eq_true, decide_eq_true_eq]
  constructor
  · rintro ⟨r, c, hr, -, hbit⟩
    refine ⟨spriteRowOf cy r, hr, fun hzero => ?_⟩
    simp [hzero] at hbit
  · rintro ⟨k, hk, hne⟩
    obtain ⟨b, hb, hbit⟩ := exists_bit_of_ne_zero hne
    have hrow : spriteRowOf cy (Fin.ofNat 32 (cy + k)) = k := (spriteRowOf_eq_iff hcy (by omega) _).2 rfl
    have hcol : spriteColumn cx (Fin.ofNat 64 (cx + (7 - b))) = 7 - b := (spriteColumn_eq_iff hcx (by omega) _).2 rfl
    refine ⟨Fin.ofNat 32 (cy + k), Fin.ofNat 64 (cx + (7 - b)), ?_, ?_, ?_⟩
    · rwa [hrow]
    · rw [hcol]
      omega
    · rwa [hrow, hcol, show 7 - (7 - b) = b by omega]

/-- Settles O25: the second draw XORs the same bits again; after a clear screen it meets exactly the bits it sets. -/
theorem drawingTwiceRestoresTheScreen : Obligations.DrawingTwiceRestoresTheScreen := by
  intro s t u x y n hx hy ht hu
  obtain ⟨-, rfl⟩ := exec_eq_next.1 ht
  obtain ⟨-, rfl⟩ := exec_eq_next.1 hu
  have hbit := drawnBit_completed (s := s) hx hy n
  refine ⟨framebuffer_ext fun r c => ?_, fun hclear => ?_⟩
  · calc (drawn (completed (.opDxyn x y n) s) x y n).fb[r.val][c.val]
        = ((drawn s x y n).fb[r.val][c.val] ^^ drawnBit s x y n r c) := by rw [drawn_pixel, hbit]; rfl
      _ = s.fb[r.val][c.val] := by rw [drawn_pixel, Bool.xor_assoc, Bool.xor_self, Bool.xor_false]
  · have hlit : ∀ (r : Fin 32) (c : Fin 64), (drawn s x y n).fb[r.val][c.val] = drawnBit s x y n r c := fun r c => by
      rw [drawn_pixel, hclear, clear_pixel, Bool.false_xor]
    rw [completed_opDxyn_vf_eq_one, drawn_collide, hbit]
    simp only [show (completed (.opDxyn x y n) s).fb = (drawn s x y n).fb from rfl, hlit, and_self]
    exact exists_spriteBit_iff s.mem s.i.toNat (Nat.mod_lt _ (by decide)) (Nat.mod_lt _ (by decide)) (by omega)

end Sys2Proof
end

section
/-! Control flow (42_control_flow.md R76, R78, R83): a call and its return, and the computed jump. -/

namespace Sys2Proof

open Machine

/-- Settles O29: the return pops the entry that the call filled. -/
theorem callThenReturn : Obligations.CallThenReturn := by
  intro s t nnn h
  obtain ⟨hroom, rfl⟩ := pushAndJump_eq_next.1 h
  refine ⟨_, (exec_op00EE _).trans (popAndReturn_succ ⟨s.sp.val, hroom⟩ rfl), ?_, rfl⟩
  simp only [Vector.getElem_set_self]

/-- Where Bnnn jumps (R83). -/
def computedTarget (s : State) (nnn : BitVec 12) : Word := BitVec.ofNat 16 (((s.reg 0).toNat + nnn.toNat) % 4096)

theorem computedTarget_toNat (s : State) (nnn : BitVec 12) :
    (computedTarget s nnn).toNat = ((s.reg 0).toNat + nnn.toNat) % 4096 := by
  rw [computedTarget, BitVec.toNat_ofNat]
  omega

theorem exec_opBnnn_jump {s : State} (h : s.params.bnnn = .jump) (nnn : BitVec 12) :
    exec (.opBnnn nnn) s = .next (s.setPC (computedTarget s nnn)) := by
  simp only [exec, execBnnn, h, computedTarget]

theorem exec_opBnnn_push {s : State} (h : s.params.bnnn = .pushThenJump) (nnn : BitVec 12) :
    exec (.opBnnn nnn) s = pushAndJump s (computedTarget s nnn) := by
  simp only [exec, execBnnn, h, computedTarget]

/-- Settles O32: both modes jump to the same target, and the pushing one is the push of a call. -/
theorem computedJump : Obligations.ComputedJump := by
  refine ⟨decodesAs_opBnnn, fun s nnn => ⟨fun hjump => ?_, fun hpush => ⟨fun hfull => ?_, fun k hk => ?_⟩⟩⟩
  · exact ⟨_, exec_opBnnn_jump hjump nnn, computedTarget_toNat s nnn, rfl⟩
  · rw [exec_opBnnn_push hpush, pushAndJump_full hfull]
  · exact ⟨_, (exec_opBnnn_push hpush nnn).trans (pushAndJump_at k hk _), Fin.val_succ k, computedTarget_toNat s nnn,
      rfl⟩

end Sys2Proof
end

section
/-! Registers and ALU (43_alu.md R87 to R97): each instruction as one whole next state, and the three orders in which a
flag and a result are written. -/

namespace Sys2Proof

open Machine

/-! ### Copy and bitwise operations -/

theorem exec_op8xy0 (s : State) (x y : Reg) : exec (.op8xy0 x y) s = .next (s.setReg x (s.reg y)).advance := rfl

theorem exec_op8xy1 (s : State) (x y : Reg) :
    exec (.op8xy1 x y) s = .next (s.setReg x (s.reg x ||| s.reg y)).advance := rfl

theorem exec_op8xy2 (s : State) (x y : Reg) :
    exec (.op8xy2 x y) s = .next (s.setReg x (s.reg x &&& s.reg y)).advance := rfl

theorem exec_op8xy3 (s : State) (x y : Reg) :
    exec (.op8xy3 x y) s = .next (s.setReg x (s.reg x ^^^ s.reg y)).advance := rfl

/-- Settles O34: each writes V[x] and nothing else but PC. -/
theorem copyAndBitwiseOperations : Obligations.CopyAndBitwiseOperations := by
  refine ⟨decodesAs_op8xy0, decodesAs_op8xy1, decodesAs_op8xy2, decodesAs_op8xy3, fun s x y =>
    ⟨exec_op8xy0 s x y, ⟨_, exec_op8xy1 s x y, setReg_advance_eq .., fun k => ?_⟩,
      ⟨_, exec_op8xy2 s x y, setReg_advance_eq .., fun k => ?_⟩,
      ⟨_, exec_op8xy3 s x y, setReg_advance_eq .., fun k => ?_⟩⟩⟩
  · rw [reg_setReg_advance, BitVec.getLsbD_or]
  · rw [reg_setReg_advance, BitVec.getLsbD_and]
  · rw [reg_setReg_advance, BitVec.getLsbD_xor]

/-! ### The write order of flag and result -/

/-- R91: when no operand is VF, the three orders write the same registers. -/
theorem reg_writeAlu_away_from_vf (s : State) (op : Byte → Byte → AluOut) {x y : Reg} (hx : x ≠ 15) (hy : y ≠ 15)
    (r : Reg) : (s.writeAlu op x y).reg r =
      if r = x then (op (s.reg x) (s.reg y)).result
      else if r = 15 then flagByte (op (s.reg x) (s.reg y)).flag else s.reg r := by
  rw [reg_writeAlu]
  cases s.params.vfOrder with
  | flagThenResult => rfl
  | resultThenFlag =>
    by_cases hr : r = x
    · subst hr
      simp [hx]
    · simp [hr]
  | sequential => simp [hx, hy]

theorem completed_of_mem_alu {i : Instr} {x y : Reg}
    (h : i ∈ [Instr.op8xy4 x y, .op8xy5 x y, .op8xy6 x y, .op8xy7 x y, .op8xyE x y]) :
    ∃ op, ∀ s, completed i s = { s with v := (s.writeAlu op x y).v, pc := s.pc + 2 } := by
  simp only [List.mem_cons, List.not_mem_nil, or_false] at h
  obtain rfl | rfl | rfl | rfl | rfl := h
  all_goals exact ⟨_, fun _ => rfl⟩

/-- Settles O35: in either order the registers are the ones written away from VF, and nothing else depends on it. -/
theorem flagWriteOrdersAgreeAwayFromVF : Obligations.FlagWriteOrdersAgreeAwayFromVF := by
  intro s t t' o i x y hx hy hi ht ht'
  obtain ⟨op, hop⟩ := completed_of_mem_alu hi
  obtain ⟨-, rfl⟩ := exec_eq_next.1 ht
  obtain ⟨-, rfl⟩ := exec_eq_next.1 ht'
  have hv : ({ s with params := { s.params with vfOrder := o } }.writeAlu op x y).v = (s.writeAlu op x y).v := by
    refine State.v_ext fun r => ?_
    rw [reg_writeAlu_away_from_vf _ op hx hy, reg_writeAlu_away_from_vf s op hx hy]
    rfl
  rw [hop, hop, hv]

/-! ### The flag-producing instructions -/

/-- R91: what each flag-producing instruction answers, from its flag and its result as integers. -/
theorem exists_next_writeAlu {op : Byte → Byte → AluOut} {flag res : Nat → Nat → Nat}
    (hflag : ∀ a b, (flagByte (op a b).flag).toNat = flag a.toNat b.toNat)
    (hres : ∀ a b, (op a b).result.toNat = res a.toNat b.toNat) {s : State} {x y : Reg} {o : Result}
    (ho : o = .next (s.writeAlu op x y).advance) : ∃ t, o = .next t ∧
      (∀ r, (t.reg r).toNat = aluReg s flag res x y r) ∧ t = { s with v := t.v, pc := s.pc + 2 } :=
  ⟨_, ho, writeAlu_toNat s op hflag hres x y, writeAlu_advance ..⟩

theorem exec_op8xy4 (s : State) (x y : Reg) : exec (.op8xy4 x y) s = .next (s.writeAlu aluAdd x y).advance := rfl

theorem exec_op8xy5 (s : State) (x y : Reg) : exec (.op8xy5 x y) s = .next (s.writeAlu aluSub x y).advance := rfl

theorem exec_op8xy6 (s : State) (x y : Reg) : exec (.op8xy6 x y) s = .next (s.writeAlu aluShr x y).advance := rfl

theorem exec_op8xy7 (s : State) (x y : Reg) : exec (.op8xy7 x y) s = .next (s.writeAlu aluSubn x y).advance := rfl

theorem exec_op8xyE {s : State} (h : s.params.shl = .shiftLeft) (x y : Reg) :
    exec (.op8xyE x y) s = .next (s.writeAlu aluShl x y).advance :=
  exec8xyE_eq_next.2 ⟨h, rfl⟩

theorem flagByte_decide (c : Prop) [Decidable c] : (flagByte (decide c)).toNat = if c then 1 else 0 := by
  simp

/-- R8: byte subtraction wraps modulo 256. -/
theorem sub_toNat_256 (a b : Byte) : (a - b).toNat = (a.toNat + 256 - b.toNat) % 256 := by
  have := b.isLt
  rw [BitVec.toNat_sub]
  omega

/-- Bit k of a byte as a flag. -/
theorem flagByte_getLsbD (a : Byte) (k : Nat) : (flagByte (a.getLsbD k)).toNat = a.toNat / 2 ^ k % 2 := by
  rw [flagByte_toNat, BitVec.getLsbD, Nat.testBit_eq_decide_div_mod_eq]
  obtain h | h := Nat.mod_two_eq_zero_or_one (a.toNat / 2 ^ k) <;> simp [h]

/-- Settles O36: the sum of two bytes wraps modulo 256, and the flag is its comparison with 255. -/
theorem addWithCarry : Obligations.AddWithCarry :=
  ⟨decodesAs_op8xy4, fun s x y =>
    exists_next_writeAlu (fun _ _ => flagByte_decide _) BitVec.toNat_add (exec_op8xy4 s x y)⟩

/-- Settles O37: the two differences wrap modulo 256, and their flags are strict comparisons. -/
theorem subtractBothWays : Obligations.SubtractBothWays :=
  ⟨decodesAs_op8xy5, decodesAs_op8xy7, fun s x y =>
    ⟨exists_next_writeAlu (fun _ _ => flagByte_decide _) sub_toNat_256 (exec_op8xy5 s x y),
      exists_next_writeAlu (fun _ _ => flagByte_decide _) (fun a b => sub_toNat_256 b a) (exec_op8xy7 s x y)⟩⟩

theorem aluShr_result_toNat (a b : Byte) : (aluShr a b).result.toNat = a.toNat / 2 := by
  simp [aluShr, BitVec.toNat_ushiftRight, Nat.shiftRight_eq_div_pow]

theorem aluShl_result_toNat (a b : Byte) : (aluShl a b).result.toNat = a.toNat * 2 % 256 := by
  simp [aluShl, BitVec.toNat_shiftLeft, Nat.shiftLeft_eq]

theorem aluShr_flag_toNat (a b : Byte) : (flagByte (aluShr a b).flag).toNat = a.toNat % 2 :=
  (flagByte_getLsbD a 0).trans (by rw [Nat.pow_zero, Nat.div_one])

/-- Settles O38: the flag is the bit shifted out; 8xyE has its effect under ShiftLeft and its fault otherwise. -/
theorem shiftBothWays : Obligations.ShiftBothWays := by
  refine ⟨decodesAs_op8xy6, fun p w hw => decodeWord_of_covers_8xyE p hw, fun s x y =>
    ⟨exists_next_writeAlu aluShr_flag_toNat aluShr_result_toNat (exec_op8xy6 s x y), fun hshl => ?_, fun hun => ?_⟩⟩
  · exact exists_next_writeAlu (fun a _ => flagByte_getLsbD a 7) aluShl_result_toNat (exec_op8xyE hshl x y)
  · exact exec_eq_fault.2 (if_pos hun)

/-! ### The random byte -/

theorem exec_opCxnn (s : State) (x : Reg) (nn : Byte) :
    exec (.opCxnn x nn) s =
      .next ({ s with draws := s.draws + 1 }.setReg x (Config.randomByte s.draws &&& nn)).advance := rfl

/-- Settles O39: the drawn byte is masked and nothing is said of it. -/
theorem randomByteMasked : Obligations.RandomByteMasked := by
  refine ⟨decodesAs_opCxnn, fun s x nn => ⟨_, exec_opCxnn s x nn, fun k => ?_, setReg_advance_eq ..⟩⟩
  rw [reg_setReg_advance, BitVec.getLsbD_and]

end Sys2Proof
end

section
/-! The index register and memory (44_index_memory.md R102, R103, R107). -/

namespace Sys2Proof

open Machine

theorem exec_opFx1E (s : State) (x : Reg) :
    exec (.opFx1E x) s = .next (s.setI (BitVec.ofNat 16 (s.i.toNat + (s.reg x).toNat))).advance := rfl

theorem exec_opFx29 (s : State) (x : Reg) :
    exec (.opFx29 x) s = .next (s.setI (BitVec.ofNat 16 (0x050 + (s.reg x).toNat * 5))).advance := rfl

/-- Settles O41: the sum wraps as a 16-bit word, and the address of a glyph is too small to wrap. -/
theorem addToIndexAndPointAtGlyph : Obligations.AddToIndexAndPointAtGlyph := by
  refine ⟨decodesAs_opFx1E, decodesAs_opFx29, fun s x =>
    ⟨⟨_, exec_opFx1E s x, BitVec.toNat_ofNat .., rfl⟩, ⟨_, exec_opFx29 s x, ?_, rfl⟩⟩⟩
  have := (s.reg x).isLt
  rw [State.advance_i, State.setI_i, BitVec.toNat_ofNat]
  omega

/-- Settles O45: the load reads back what the store wrote, into the registers it came from. -/
theorem storeThenLoadRoundTrip : Obligations.StoreThenLoadRoundTrip := by
  intro s k hwf hfits
  refine ⟨_, _, exec_opFx55_fits hfits, exec_opFx65_fits hfits, ?_, fun r hr => read_store_regs hwf hfits hr, ?_⟩
  · refine Vector.ext fun r hr => (getElem_loadRegs _ _ k ⟨r, hr⟩).trans ?_
    split
    · next hle => exact read_store_regs hwf hfits hle
    · rfl
  · simp only [BitVec.toNat_ofNat]
    omega

end Sys2Proof
end

section
/-! Keys and timers (45_keys_timers.md R108 to R114). -/

namespace Sys2Proof

open Machine

/-! ### Skips on a key -/

theorem exec_opEx9E_of_key {s : State} {x : Reg} (k : Fin 16) (h : (s.reg x).toNat = k.val) :
    exec (.opEx9E x) s = .next { s with pc := if s.key[k.val] then s.pc + 4 else s.pc + 2 } :=
  execEx9E_eq_next.2 ⟨_, keyPressed_eq_some.2 ⟨k, h, rfl⟩, State.skipIf_eq ..⟩

theorem exec_opExA1_of_key {s : State} {x : Reg} (k : Fin 16) (h : (s.reg x).toNat = k.val) :
    exec (.opExA1 x) s = .next { s with pc := if s.key[k.val] then s.pc + 2 else s.pc + 4 } := by
  refine execExA1_eq_next.2 ⟨_, keyPressed_eq_some.2 ⟨k, h, rfl⟩, ?_⟩
  rw [State.skipIf_eq]
  cases s.key[k.val] <;> rfl

/-- Settles O46: V[x] names a key, on which both skip, or none, which is their fault. -/
theorem skipOnKey : Obligations.SkipOnKey := by
  refine ⟨decodesAs_opEx9E, decodesAs_opExA1, fun s x =>
    ⟨fun k hk => ⟨exec_opEx9E_of_key k hk, exec_opExA1_of_key k hk⟩, fun h => ?_⟩⟩
  exact ⟨exec_eq_fault.2 (if_pos h), exec_eq_fault.2 (if_pos h)⟩

/-! ### The wait for a key -/

theorem exec_opFx0A_of_no_key {s : State} (h : ∀ k : Fin 16, s.key[k.val] = false) (x : Reg) :
    exec (.opFx0A x) s = .next s := by
  simp only [exec, execFx0A, lowestKey_eq_none.2 h]

theorem exec_opFx0A_of_lowest {s : State} {k : Fin 16} (hk : s.key[k.val] = true)
    (hlow : ∀ j : Fin 16, j < k → s.key[j.val] = false) (x : Reg) :
    exec (.opFx0A x) s = .next (s.setReg x (BitVec.ofNat 8 k.val)).advance := by
  have hscan : s.lowestKey = some k.val :=
    lowestKey_eq_some.2 ⟨k.isLt, hk, fun j hj => hlow ⟨j, hj.trans k.isLt⟩ hj⟩
  simp only [exec, execFx0A, hscan]

/-- Settles O47: the scan finds no key, or the lowest one. -/
theorem waitForKey : Obligations.WaitForKey := by
  refine ⟨decodesAs_opFx0A, fun s x => ⟨fun h => exec_opFx0A_of_no_key h x, fun k hk hlow => ?_⟩⟩
  refine ⟨_, exec_opFx0A_of_lowest hk hlow x, ?_, setReg_advance_eq ..⟩
  rw [reg_setReg_advance, BitVec.toNat_ofNat]
  omega

/-- Settles O48: the execute phase changes nothing, so the step is the tick alone. -/
theorem keyWaitOnlyTicksTimers : Obligations.KeyWaitOnlyTicksTimers :=
  fun _ _ x hw hi h =>
    ⟨_, step_of_exec_next hw hi (exec_opFx0A_of_no_key h x), tick_dt_toNat .., tickTimer_toNat _, rfl⟩

/-! ### The sound timer -/

theorem exec_opFx18 (s : State) (x : Reg) : exec (.opFx18 x) s = .next (s.setST (s.reg x)).advance := rfl

/-- Settles O50: Fx18 is one write of ST. -/
theorem setSoundTimer : Obligations.SetSoundTimer := ⟨decodesAs_opFx18, exec_opFx18⟩

end Sys2Proof
end

section
/-! Construction and the host (10_state.md R32; 60_exceptions.md R121, R122, R128 to R132; 70_reset_and_hazards.md R136,
R137): what each action of the host returns and changes. -/

namespace Sys2Proof

open Machine

/-! ### The constructed state -/

/-- R36, R37: construction leaves the font in its table and 0 elsewhere. -/
theorem read_construct (p : Params) (font : Vector Byte 80) (a : Nat) :
    (State.construct p font).mem.read a = if h : 0x050 ≤ a ∧ a ≤ 0x09F then font[a - 0x050]'(by omega) else 0 := by
  have hlen : font.toList.length = 80 := font.length_toList
  show (Memory.store [] 0x050 font.toList).read a = _
  split
  · next h =>
    have hread := Memory.read_store_inside font.toList wf_nil (a := 0x050) (by rw [hlen]; decide) (a - 0x050) (by omega)
    rwa [Nat.add_sub_cancel' h.1, Vector.getElem_toList] at hread
  · next h =>
    rw [Memory.read_store_outside _ _ (by omega)]
    exact resetByte_outside_font (by omega)

/-- Settles O51: construction stores the font into the reset state, whose registers and pixels are 0. -/
theorem constructedState : Obligations.ConstructedState := fun p font =>
  ⟨read_construct p font, fun r => Vector.getElem_replicate r.isLt, rfl, rfl, rfl,
    fun k => Vector.getElem_replicate k.isLt, rfl, rfl, fun k => Vector.getElem_replicate k.isLt, clear_pixel, rfl, rfl⟩

/-! ### Loading an image -/

theorem load_too_large {s : State} {bytes : List Byte} (h : 0x1000 < 0x200 + bytes.length) :
    s.load bytes = .error (.programTooLarge s.pc) :=
  if_pos h

theorem load_fits {s : State} {bytes : List Byte} (h : 0x200 + bytes.length ≤ 0x1000) :
    s.load bytes = .ok { s with mem := s.mem.store 0x200 bytes } :=
  load_eq_ok.2 ⟨h, rfl⟩

/-- R137: before the first step, the host's load is the engine's. -/
theorem act_load_of_ok {s t : State} {bytes : List Byte} (h : s.load bytes = .ok t) :
    Session.act ⟨s, .loading⟩ (.load bytes) = some (.ok, ⟨t, .loading⟩) := by
  simp only [Session.act, Session.loadAction, h]

theorem act_load_of_error {s : State} {f : Fault} {bytes : List Byte} (h : s.load bytes = .error f) :
    Session.act ⟨s, .loading⟩ (.load bytes) = some (.failed f, ⟨s, .loading⟩) := by
  simp only [Session.act, Session.loadAction, h]

/-- Settles O52: a load is one store from 0x200 on when the image fits, and no change otherwise. -/
theorem loadCopiesTheImage : Obligations.LoadCopiesTheImage := by
  intro s bytes
  refine ⟨fun h => ⟨load_too_large h, act_load_of_error (load_too_large h)⟩, fun h =>
    ⟨_, load_fits h, act_load_of_ok (load_fits h), fun hwf k hk => ?_, fun a ha => ?_, rfl⟩⟩
  · exact Memory.read_store_inside bytes hwf h k hk
  · exact Memory.read_store_outside bytes _ ha

/-! ### Views and latches -/

/-- Lists of one length laid end to end: entry q of list r is at place r * n + q. -/
theorem getElem?_flatMap_of_length {α β : Type} {f : α → List β} {n : Nat} (hf : ∀ a, (f a).length = n) (l : List α)
    (r : Nat) {q : Nat} (hq : q < n) : (l.flatMap f)[r * n + q]? = l[r]?.bind fun a => (f a)[q]? := by
  induction l generalizing r with
  | nil => simp
  | cons a l ih =>
    rw [List.flatMap_cons]
    cases r with
    | zero => rw [List.getElem?_append_left (by rw [hf]; omega)]; simp
    | succ r =>
      have hle : (f a).length ≤ (r + 1) * n + q := by
        rw [hf, Nat.succ_mul]
        omega
      have hsub : (r + 1) * n + q - (f a).length = r * n + q := by
        rw [hf, Nat.succ_mul]
        omega
      rw [List.getElem?_append_right hle, hsub, ih, List.getElem?_cons_succ]

theorem framebufferView_length (s : State) : s.framebufferView.length = 2048 := by
  simp [State.framebufferView, List.length_flatMap]

theorem framebufferView_pixel (s : State) (r : Fin 32) (c : Fin 64) :
    s.framebufferView[r.val * 64 + c.val]? = some (if s.fb[r.val][c.val] then 1 else 0) := by
  rw [State.framebufferView, getElem?_flatMap_of_length (n := 64) (fun row => by simp) _ _ c.isLt]
  simp

/-- Settles O53: each action is one field read or one field written; the view of the framebuffer is row by row. -/
theorem hostViewsAndLatches : Obligations.HostViewsAndLatches := fun c _ =>
  ⟨rfl, rfl, rfl, rfl, rfl, rfl, _, rfl, framebufferView_length c.engine, framebufferView_pixel c.engine⟩

/-! ### The end of a session -/

theorem stepAction_of_fault {c : Session} {f : Fault} (hphase : ∀ g, c.phase ≠ .over g) (h : step c.engine = .fault f) :
    c.stepAction = some (.failed f, ⟨c.engine, .over f⟩) := by
  unfold Session.stepAction
  split
  · next g hover => exact absurd hover (hphase g)
  all_goals rw [h]

theorem stepAction_of_over {c : Session} {f : Fault} (h : c.phase = .over f) : c.stepAction = none := by
  simp only [Session.stepAction, h]

theorem loadAction_of_over {c : Session} {f : Fault} (h : c.phase = .over f) (bytes : List Byte) :
    c.loadAction bytes = none := by
  simp only [Session.loadAction, h]

/-- Settles O54: a step action ends in the stepping or the over phase, and neither has a load. -/
theorem aFaultEndsTheRun : Obligations.AFaultEndsTheRun := by
  refine ⟨fun c f => stepAction_of_fault, fun c f h => ⟨stepAction_of_over h, loadAction_of_over h⟩, ?_⟩
  intro c d r bytes h
  obtain ⟨t, -, rfl⟩ | ⟨f, -, rfl⟩ := stepAction_eq_some h
  · rfl
  · rfl

end Sys2Proof
end

section
/-! The end of a run (70_reset_and_hazards.md R144, R145): at a designated stop only the timers move, and `runToStop`
reports what the plain sequence of steps `stateAfter` comes to first. -/

namespace Sys2Proof

open Machine

/-! ### Designated stops -/

theorem atDesignatedStop_iff {s : State} : s.atDesignatedStop = true ↔
    s.pc.toNat ≤ 0xFFE ∧ bigEndian (s.mem.read s.pc.toNat) (s.mem.read (s.pc.toNat + 1)) = 0x1000 ||| s.pc := by
  simp only [State.atDesignatedStop, Bool.and_eq_true, decide_eq_true_eq, beq_iff_eq]

/-- R145: the condition in integers. -/
theorem atDesignatedStop_iff_toNat {s : State} : s.atDesignatedStop = true ↔
    s.pc.toNat ≤ 0xFFE ∧
      (s.mem.read s.pc.toNat).toNat * 256 + (s.mem.read (s.pc.toNat + 1)).toNat = 0x1000 ||| s.pc.toNat := by
  rw [atDesignatedStop_iff, ← BitVec.toNat_inj, bigEndian_toNat, BitVec.toNat_or]
  rfl

/-- R77: the jump to an address below 4096, as a word. -/
theorem jumpWord_toNat {a : Word} (h : a.toNat < 4096) : (0x1000 ||| a).toNat = 0x1000 + a.toNat := by
  rw [BitVec.toNat_or]
  exact (Nat.two_pow_add_eq_or_of_lt (i := 12) h 1).symm

theorem decodeWord_jumpWord (p : Params) {a : Word} (h : a.toNat < 4096) :
    ∃ nnn, decodeWord p (0x1000 ||| a) = some (.op1nnn nnn) ∧ zext16 nnn = a := by
  have hw := jumpWord_toNat h
  refine ⟨_, (decodesAs_op1nnn p _).2 ((mask_F000 ..).2 ?_), BitVec.eq_of_toNat_eq ?_⟩
  · rw [hw]
    show 4096 * ((4096 + a.toNat) / 4096) = 4096
    omega
  · rw [zext16_toNat, fieldNNN_toNat, hw]
    omega

/-- R144: the jump to itself leaves the whole state to the tick. -/
theorem step_at_stop {s : State} (h : s.atDesignatedStop = true) : ∃ i, step s = .next (tick i s s) := by
  obtain ⟨hpc, hword⟩ := atDesignatedStop_iff.1 h
  obtain ⟨nnn, hdec, htarget⟩ := decodeWord_jumpWord s.params (a := s.pc) (by omega)
  have hexec : exec (.op1nnn nnn) s = .next s := by rw [exec_op1nnn, htarget]; rfl
  exact ⟨_, step_of_exec_next ((fetchWord_ok hpc).trans (congrArg _ hword)) hdec hexec⟩

/-- Settles O55: the tick moves neither PC nor memory, so the state is again at the stop. -/
theorem designatedStopLoops : Obligations.DesignatedStopLoops := by
  intro s h
  obtain ⟨i, hstep⟩ := step_at_stop h
  exact ⟨_, hstep, rfl, h⟩

/-! ### One step of a run -/

theorem runToStop_of_stop {s : State} (h : s.atDesignatedStop = true) (keys : List (Vector Bool 16)) :
    runToStop keys s = .stopped s := by
  cases keys <;> simp only [runToStop, h, if_true]

section

variable {k : Vector Bool 16} {keys : List (Vector Bool 16)} {s t : State}

theorem runToStop_nil (h : s.atDesignatedStop = false) : runToStop [] s = .unfinished s := by
  simp [runToStop, h]

theorem runToStop_cons_of_next (h : s.atDesignatedStop = false) (hstep : step (s.setKeys k) = .next t) :
    runToStop (k :: keys) s = runToStop keys t := by
  simp [runToStop, h, hstep]

theorem runToStop_cons_of_fault (h : s.atDesignatedStop = false) {f : Fault} (hstep : step (s.setKeys k) = .fault f) :
    runToStop (k :: keys) s = .faulted f (s.setKeys k) := by
  simp [runToStop, h, hstep]

theorem stateAfter_of_fault {f : Fault} (hstep : step (s.setKeys k) = .fault f) : stateAfter (k :: keys) s = none := by
  simp only [stateAfter, hstep]

/-- The run comes to no designated stop in its first n states. -/
def NoStopBefore (n : Nat) (keys : List (Vector Bool 16)) (s : State) : Prop :=
  ∀ m v, m < n → stateAfter (keys.take m) s = some v → v.atDesignatedStop = false

theorem NoStopBefore.start {n : Nat} (h : NoStopBefore (n + 1) keys s) : s.atDesignatedStop = false :=
  h 0 s (Nat.succ_pos n) rfl

theorem noStopBefore_zero : NoStopBefore 0 keys s := fun _ _ h => absurd h (Nat.not_lt_zero _)

/-- From a state that is no stop, the run goes on to the same states as the run from its next state. -/
theorem noStopBefore_cons {n : Nat} (h : s.atDesignatedStop = false) (hstep : step (s.setKeys k) = .next t) :
    NoStopBefore (n + 1) (k :: keys) s ↔ NoStopBefore n keys t := by
  constructor
  · intro hno m v hm hv
    exact hno (m + 1) v (Nat.succ_lt_succ hm) ((stateAfter_of_next hstep _).trans hv)
  · intro hno m v hm hv
    cases m with
    | zero => exact Option.some.inj hv ▸ h
    | succ m => exact hno m v (Nat.lt_of_succ_lt_succ hm) ((stateAfter_of_next hstep _).symm.trans hv)

theorem noStopBefore_one (h : s.atDesignatedStop = false) : NoStopBefore 1 keys s := by
  intro m v hm hv
  obtain rfl := Nat.lt_one_iff.1 hm
  exact Option.some.inj hv ▸ h

end

/-! ### What a run is reported as -/

/-- A run is at a stop, or has no keys left, or goes on through its first step, or ends at that step's fault. -/
theorem run_induction {motive : List (Vector Bool 16) → State → Prop}
    (stop : ∀ keys s, s.atDesignatedStop = true → motive keys s)
    (nil : ∀ s, s.atDesignatedStop = false → motive [] s)
    (next : ∀ k keys s t, s.atDesignatedStop = false → step (s.setKeys k) = .next t → motive keys t →
      motive (k :: keys) s)
    (fault : ∀ k keys s f, s.atDesignatedStop = false → step (s.setKeys k) = .fault f → motive (k :: keys) s)
    (keys : List (Vector Bool 16)) (s : State) : motive keys s := by
  induction keys generalizing s with
  | nil =>
    cases h : s.atDesignatedStop with
    | true => exact stop _ s h
    | false => exact nil s h
  | cons k keys ih =>
    cases h : s.atDesignatedStop with
    | true => exact stop _ s h
    | false =>
      obtain ⟨t, hstep⟩ | ⟨f, hstep, -⟩ := step_next_or_stepFault (s.setKeys k)
      · exact next k keys s t h hstep (ih t)
      · exact fault k keys s f h hstep

theorem runToStop_eq_stopped {keys : List (Vector Bool 16)} {s u : State} :
    runToStop keys s = .stopped u ↔ ∃ n, n ≤ keys.length ∧ stateAfter (keys.take n) s = some u ∧
      u.atDesignatedStop = true ∧ NoStopBefore n keys s := by
  induction keys, s using run_induction with
  | stop keys s h =>
    rw [runToStop_of_stop h]
    constructor
    · intro hu
      cases hu
      exact ⟨0, Nat.zero_le _, rfl, h, noStopBefore_zero⟩
    · rintro ⟨n, -, hu, -, hno⟩
      cases n with
      | zero => cases hu; rfl
      | succ n => cases h.symm.trans hno.start
  | nil s h =>
    rw [runToStop_nil h]
    refine ⟨nofun, ?_⟩
    rintro ⟨n, -, hu, hstop, -⟩
    rw [List.take_nil, stateAfter_nil] at hu
    cases hu
    cases hstop.symm.trans h
  | next k keys s t h hstep ih =>
    rw [runToStop_cons_of_next h hstep, ih]
    constructor
    · rintro ⟨n, hn, hu, hstop, hno⟩
      exact ⟨n + 1, Nat.succ_le_succ hn, (stateAfter_of_next hstep _).trans hu, hstop,
        (noStopBefore_cons h hstep).2 hno⟩
    · rintro ⟨n, hn, hu, hstop, hno⟩
      cases n with
      | zero => cases hu; cases hstop.symm.trans h
      | succ n =>
        exact ⟨n, Nat.le_of_succ_le_succ hn, (stateAfter_of_next hstep _).symm.trans hu, hstop,
          (noStopBefore_cons h hstep).1 hno⟩
  | fault k keys s f h hstep =>
    rw [runToStop_cons_of_fault h hstep]
    refine ⟨nofun, ?_⟩
    rintro ⟨n, -, hu, hstop, -⟩
    cases n with
    | zero => cases hu; cases hstop.symm.trans h
    | succ n => cases (stateAfter_of_fault hstep).symm.trans hu

theorem runToStop_eq_faulted {keys : List (Vector Bool 16)} {s u : State} {f : Fault} :
    runToStop keys s = .faulted f u ↔ ∃ (n : Nat) (h : n < keys.length) (v : State),
      stateAfter (keys.take n) s = some v ∧ u = v.setKeys keys[n] ∧ step u = .fault f ∧
        NoStopBefore (n + 1) keys s := by
  induction keys, s using run_induction with
  | stop keys s h =>
    rw [runToStop_of_stop h]
    refine ⟨nofun, ?_⟩
    rintro ⟨n, -, v, -, -, -, hno⟩
    cases h.symm.trans hno.start
  | nil s h =>
    rw [runToStop_nil h]
    refine ⟨nofun, ?_⟩
    rintro ⟨n, hn, -⟩
    cases hn
  | next k keys s t h hstep ih =>
    rw [runToStop_cons_of_next h hstep, ih]
    constructor
    · rintro ⟨n, hn, v, hv, hu, hfault, hno⟩
      exact ⟨n + 1, Nat.succ_lt_succ hn, v, (stateAfter_of_next hstep _).trans hv, hu, hfault,
        (noStopBefore_cons h hstep).2 hno⟩
    · rintro ⟨n, hn, v, hv, hu, hfault, hno⟩
      cases n with
      | zero =>
        cases hv
        rw [hu] at hfault
        cases hstep.symm.trans hfault
      | succ n =>
        exact ⟨n, Nat.lt_of_succ_lt_succ hn, v, (stateAfter_of_next hstep _).symm.trans hv, hu, hfault,
          (noStopBefore_cons h hstep).1 hno⟩
  | fault k keys s g h hstep =>
    rw [runToStop_cons_of_fault h hstep]
    constructor
    · intro hu
      cases hu
      exact ⟨0, Nat.succ_pos _, s, rfl, rfl, hstep, noStopBefore_one h⟩
    · rintro ⟨n, _, v, hv, hu, hfault, -⟩
      cases n with
      | zero =>
        cases hv
        subst hu
        cases hstep.symm.trans hfault
        rfl
      | succ n => cases (stateAfter_of_fault hstep).symm.trans hv

theorem runToStop_eq_unfinished {keys : List (Vector Bool 16)} {s u : State} :
    runToStop keys s = .unfinished u ↔ stateAfter keys s = some u ∧ NoStopBefore (keys.length + 1) keys s := by
  induction keys, s using run_induction with
  | stop keys s h =>
    rw [runToStop_of_stop h]
    refine ⟨nofun, ?_⟩
    rintro ⟨-, hno⟩
    cases h.symm.trans hno.start
  | nil s h =>
    rw [runToStop_nil h, stateAfter_nil, RunEnd.unfinished.injEq, Option.some.injEq]
    exact (and_iff_left (noStopBefore_one h)).symm
  | next k keys s t h hstep ih =>
    rw [runToStop_cons_of_next h hstep, ih, stateAfter_of_next hstep, List.length_cons, noStopBefore_cons h hstep]
  | fault k keys s f h hstep =>
    rw [runToStop_cons_of_fault h hstep, stateAfter_of_fault hstep]
    exact ⟨nofun, nofun⟩

/-- R144: a reported stop goes on looping, whatever the host does with the keys. -/
theorem step_at_stop_with_keys {s : State} (h : s.atDesignatedStop = true) (k : Vector Bool 16) :
    ∃ t, step (s.setKeys k) = .next t ∧ t.atDesignatedStop = true ∧ t.pc = s.pc := by
  obtain ⟨i, hstep⟩ := step_at_stop (s := s.setKeys k) h
  exact ⟨_, hstep, h, rfl⟩

/-- Settles O56: each of the three reports is what the sequence of steps comes to, by induction over the run. -/
theorem runEndsWhereItSays : Obligations.RunEndsWhereItSays := by
  intro keys s
  refine ⟨atDesignatedStop_iff_toNat, (runToStop_of_stop · keys), fun h k => ⟨fun t => runToStop_cons_of_next h,
    fun f => runToStop_cons_of_fault h⟩, fun u => runToStop_eq_stopped, fun f u => ?_, fun u => ?_, fun u hu => ?_⟩
  · simpa only [NoStopBefore, Nat.lt_succ_iff] using runToStop_eq_faulted
  · simpa only [NoStopBefore, Nat.lt_succ_iff] using runToStop_eq_unfinished
  · obtain ⟨n, -, -, hstop, -⟩ := runToStop_eq_stopped.1 hu
    exact step_at_stop_with_keys hstop

end Sys2Proof
end
